-- ==== Sys2Proof/Config.lean ====
section
/-! DEFINITION. The implementation parameters of spec/00_scope.md rule R6, each at the value the rule gives it, and
the one free value of the block itself, `POR_SCR`. The rest of the model is written against these names. -/

namespace Sys2Proof

namespace Config

/-! The widths and sizes of rule R6; the types of Word.lean and the bounds of every check are written with them. -/

/-- `ADDRW`, the width of a device address. -/
@[simp] abbrev ADDRW : Nat := 7
/-- `ERRW`, the width of the latched error code (D2). -/
@[simp] abbrev ERRW : Nat := 32
/-- `SCRN`, the size of the scratch buffer in bytes. -/
@[simp] abbrev SCRN : Nat := 4
/-- `BURSTN`, the number of registers of the packer's burst. -/
@[simp] abbrev BURSTN : Nat := 6
/-- `MAXWR`, the largest payload of a raw write (D3). -/
@[simp] abbrev MAXWR : Nat := 4
/-- `MAXRD`, the largest length of a read (D4). -/
@[simp] abbrev MAXRD : Nat := 8
/-- `BANDW`, the width of a deadzone band (D5). -/
@[simp] abbrev BANDW : Nat := 16
/-- `VALW`, the width of an axis result (D7). -/
@[simp] abbrev VALW : Nat := 16
/-- `CMDW`, the width of a command word (D13). -/
@[simp] abbrev CMDW : Nat := 64
/-- `RESW`, the width of a result (D17). -/
@[simp] abbrev RESW : Nat := 64

end Config

/-- The parameters that rule R6 leaves to an implementation, with the rule's values as defaults: the register map of
20_memory.md R31 (D6) and the case of the diagnostic digits (D10). Log entry 12. -/
structure Params where
  regId            : BitVec 8 := 0x00
  regVer1          : BitVec 8 := 0x01
  regVer2          : BitVec 8 := 0x02
  regXMsb          : BitVec 8 := 0x03
  regXLsb          : BitVec 8 := 0x04
  regYMsb          : BitVec 8 := 0x05
  regYLsb          : BitVec 8 := 0x06
  regButton        : BitVec 8 := 0x07
  regStatus        : BitVec 8 := 0x08
  regI2cLock       : BitVec 8 := 0x09
  regChangeAddress : BitVec 8 := 0x0A
  diagUpper        : Bool := true
deriving DecidableEq, Repr

/-- R32: whatever numbers an implementation takes, the six burst registers are consecutive and ascending. -/
abbrev Params.Consecutive (p : Params) : Prop :=
  p.regXLsb.toNat = p.regXMsb.toNat + 1 ∧ p.regYMsb.toNat = p.regXMsb.toNat + 2 ∧
  p.regYLsb.toNat = p.regXMsb.toNat + 3 ∧ p.regButton.toNat = p.regXMsb.toNat + 4 ∧
  p.regStatus.toNat = p.regXMsb.toNat + 5

namespace Config

/-- The parameters this model runs with: the values of rule R6 (log entry 12). -/
def params : Params := {}

/-- `DEFAULT_ADDR`: what an assembler writes for an omitted device address (R47, R62). -/
def defaultAddr : BitVec ADDRW := 0x20

/-- `POR_ERR`: `ERR` after power-on reset (R22, D22). -/
def porErr : BitVec ERRW := 0

/-- `POR_CHK`: `CHK` after power-on reset (R23, D22). -/
def porChk : Bool := false

/-- `POR_SCR`: the byte `SCR[i]` holds after power-on reset, "any value, drawn once at power-on" (R24, U9): a free
value, never evaluated (log entry 1). -/
opaque porScr : Nat → BitVec 8

end Config

end Sys2Proof
end

