-- ==== Sys2Proof/Word.lean ====
section
/-! DEFINITION. The word types of JSQ: bytes, device addresses, error codes, deadzone bands, command and response words, each
of the width that spec/00_scope.md rule R6 names (Config.lean). -/

namespace Sys2Proof

/-- One byte on the bus, one register of the peripheral, one byte of `SCR`. -/
abbrev Byte := BitVec 8

/-- A device address of `ADDRW` bits: "a 7-bit integer identifying the peripheral on the bus" (R47). -/
abbrev DevAddr := BitVec Config.ADDRW

/-- An error code of the bus primitive, `ERRW` bits, opaque but for the test against zero (R11, R146). -/
abbrev ErrCode := BitVec Config.ERRW

/-- The field of a deadzone band, `BANDW` bits in two's complement (R54). -/
abbrev Band := BitVec Config.BANDW

/-- A command word of `CMDW` bits (R50). -/
abbrev Command := BitVec Config.CMDW

/-- A result of `RESW` bits (R57). -/
abbrev Result := BitVec Config.RESW

end Sys2Proof
end

