-- ==== Sys2Proof/Syntax.lean ====
section
/-! DEFINITION. The fifteen commands of JSQ command set 1 (spec/30_encoding.md rules R51 to R56), one constructor
for each row of spec/opcode_table.json, with their operands as rule R54 assembles them. -/

namespace Sys2Proof

/-- The range modes, in the row order of the source's table (R55). -/
inductive Mode where
  /-- 0..1023 -/
  | A
  /-- 0..255 -/
  | B
  /-- -128..+127 -/
  | C
  /-- -100..+100 -/
  | D
deriving DecidableEq, Repr

/-- The legal size codes `SZ` of an `SCS` format (R56). -/
inductive ScsSize where
  /-- `SZ = 0`: 1 byte -/
  | one
  /-- `SZ = 1`: 2 bytes -/
  | two
  /-- `SZ = 2`: 4 bytes -/
  | four
deriving DecidableEq, Repr

/-- The size `n` in bytes (R56). -/
def ScsSize.bytes : ScsSize → Nat
  | .one => 1
  | .two => 2
  | .four => 4

/-- A command with its operands. A deadzone band is held as the `BANDW`-bit field it is encoded in; its value is the
two's complement integer of that field (R54). An absent override is `OVR_EN = 0` (R62). -/
inductive Instr where
  /-- `INIT check` (R135) -/
  | init (check : Bool)
  /-- `GERR` (R136) -/
  | gerr
  /-- `WRS addr, [b0, ..., b(n-1)], rs` (R76) -/
  | wrs (addr : DevAddr) (payload : List Byte) (rs : Bool)
  /-- `RDS addr, len, rs` (R77) -/
  | rds (addr : DevAddr) (len : Nat) (rs : Bool)
  /-- `RRD addr, reg, len` (R78) -/
  | rrd (addr : DevAddr) (reg : Byte) (len : Nat)
  /-- `RWR addr, reg, value` (R79) -/
  | rwr (addr : DevAddr) (reg value : Byte)
  /-- `RDH addr, mode, lo, hi` (R99) -/
  | rdh (addr : DevAddr) (mode : Mode) (lo hi : Band)
  /-- `RDV addr, mode, lo, hi` (R100) -/
  | rdv (addr : DevAddr) (mode : Mode) (lo hi : Band)
  /-- `RDA addr, mode, lo, hi` (R101) -/
  | rda (addr : DevAddr) (mode : Mode) (lo hi : Band)
  /-- `BTP addr` (R112) -/
  | btp (addr : DevAddr)
  /-- `BTW addr` (R113) -/
  | btw (addr : DevAddr)
  /-- `BTC addr` (R114) -/
  | btc (addr : DevAddr)
  /-- `RDP addr` / `RDP addr, ovr` (R122) -/
  | rdp (addr : DevAddr) (ovr : Option Byte)
  /-- `SCS off, fmt, value` (R123) -/
  | scs (off : Fin Config.SCRN) (size : ScsSize) (be : Bool) (value : BitVec 32)
  /-- `SCG` (R124) -/
  | scg
deriving DecidableEq, Repr

end Sys2Proof
end

