-- ==== Sys2Proof/WellFormed.lean ====
section
/-! DEFINITION. Which commands are legal: the operand ranges of spec/30_encoding.md rules R52, R54, R58 (conditions
3, 4 and 6) that the types of `Instr` do not already carry. -/

namespace Sys2Proof

/-- R58: `WRS` carries 1 to `MAXWR` bytes, `RDS` and `RRD` read 1 to `MAXRD` bytes, an `SCS` stays inside `SCR`.
Every other command is legal with every operand its type admits. -/
def Instr.wf : Instr → Bool
  | .wrs _ payload _ => decide (1 ≤ payload.length ∧ payload.length ≤ Config.MAXWR)
  | .rds _ len _ => decide (1 ≤ len ∧ len ≤ Config.MAXRD)
  | .rrd _ _ len => decide (1 ≤ len ∧ len ≤ Config.MAXRD)
  | .scs off size _ _ => decide (off.val + size.bytes ≤ Config.SCRN)
  | .init _ => true
  | .gerr => true
  | .rwr _ _ _ => true
  | .rdh _ _ _ _ => true
  | .rdv _ _ _ _ => true
  | .rda _ _ _ _ => true
  | .btp _ => true
  | .btw _ => true
  | .btc _ => true
  | .rdp _ _ => true
  | .scg => true

end Sys2Proof
end

