-- ==== Sys2Proof/Decode.lean ====
section
/-! DEFINITION. The command encoding of spec/30_encoding.md: the fields of a command word (R50), the decoder, total
on all words and refusing by name (R51 to R54, R58), the encoder, and the opcode table's match and mask rows. -/

namespace Sys2Proof

/-- The fields of a command word (R50); `rs` is the bit `CMD[15]`. -/
structure Fields where
  opc  : BitVec 8
  addr : DevAddr
  rs   : BitVec 1
  a    : BitVec 8
  b    : BitVec 8
  w    : BitVec 32
deriving DecidableEq, Repr

/-- R50: `OPC = CMD[7:0]`, `ADDR = CMD[14:8]`, `RS = CMD[15]`, `A = CMD[23:16]`, `B = CMD[31:24]`, `W = CMD[63:32]`. -/
def Fields.ofWord (c : Command) : Fields where
  opc  := c.extractLsb' 0 8
  addr := c.extractLsb' 8 Config.ADDRW
  rs   := c.extractLsb' 15 1
  a    := c.extractLsb' 16 8
  b    := c.extractLsb' 24 8
  w    := c.extractLsb' 32 32

/-- The word with the given fields, each at its position of R50. -/
def Fields.toWord (f : Fields) : Command :=
  f.opc.setWidth Config.CMDW ||| f.addr.setWidth Config.CMDW <<< 8 ||| f.rs.setWidth Config.CMDW <<< 15 ||| f.a.setWidth Config.CMDW <<< 16 |||
    f.b.setWidth Config.CMDW <<< 24 ||| f.w.setWidth Config.CMDW <<< 32

/-- Why a word is `ILLEGAL` (R58); the number is the condition's number in that rule. -/
inductive Illegal where
  /-- 1: `OPC = 0x00` or `OPC >= 0x10` -/
  | reservedOpcode
  /-- 2: a bit that R52 marks reserved for the command's format is 1 -/
  | reservedBit
  /-- 3: `WRS` with `N = 0` or `N > 4` -/
  | payloadLength
  /-- 3: `WRS` with a non-zero payload byte at index `>= N` -/
  | unusedPayload
  /-- 4: `RDS` or `RRD` with `LEN = 0` or `LEN > 8` -/
  | readLength
  /-- 5: `RDP` with `OVR_EN = 0` and `W[7:0] != 0` -/
  | overrideDisabled
  /-- 6: `SCS` with `SZ = 3` -/
  | scratchSize
  /-- 6: `SCS` with `OFF + n > 4` -/
  | scratchRange
deriving DecidableEq, Repr

/-- R55: the range mode of `MODE = A[1:0]`. -/
def Mode.ofCode (m : BitVec 2) : Mode :=
  match m.toNat with
  | 0 => .A
  | 1 => .B
  | 2 => .C
  | _ => .D

/-- R55: the code of a range mode. -/
def Mode.code : Mode → BitVec 2
  | .A => 0
  | .B => 1
  | .C => 2
  | .D => 3

/-- R56: the size of `SZ = A[3:2]`; `SZ = 3` is reserved. -/
def ScsSize.ofCode (sz : BitVec 2) : Option ScsSize :=
  match sz.toNat with
  | 0 => some .one
  | 1 => some .two
  | 2 => some .four
  | _ => none

/-- R56: the code of a size. -/
def ScsSize.code : ScsSize → BitVec 2
  | .one => 0
  | .two => 1
  | .four => 2

/-- R54: `[W[7:0], W[15:8], W[23:16], W[31:24]]` cut to its first `n` bytes. -/
def payloadOf (n : Nat) (w : BitVec 32) : List Byte :=
  [w.extractLsb' 0 8, w.extractLsb' 8 8, w.extractLsb' 16 8, w.extractLsb' 24 8].take n

/-- R52, format X: byte `i` of the transfer is `W[8i+7:8i]`. -/
def payloadWord : List Byte → BitVec 32
  | [] => 0
  | b :: bs => b.setWidth 32 ||| (payloadWord bs <<< 8)

/-- R52, format M: `W[15:0] = LO`, `W[31:16] = HI`. -/
def bandWord (lo hi : Band) : BitVec 32 := lo.setWidth 32 ||| hi.setWidth 32 <<< Config.BANDW

/-- Formats Z and I of R52 have every bit of `ADDR`, `RS`, `B` and `W` reserved. -/
def Fields.decodeInit (f : Fields) : Except Illegal Instr :=
  if f.addr = 0 ∧ f.rs = 0 ∧ f.a &&& 0xFE = 0 ∧ f.b = 0 ∧ f.w = 0 then .ok (.init (f.a.getLsbD 0))
  else .error .reservedBit

/-- Format Z: every bit but `OPC` is reserved. -/
def Fields.decodeZ (f : Fields) (i : Instr) : Except Illegal Instr :=
  if f.addr = 0 ∧ f.rs = 0 ∧ f.a = 0 ∧ f.b = 0 ∧ f.w = 0 then .ok i else .error .reservedBit

/-- Format D: every bit but `OPC` and `ADDR` is reserved. -/
def Fields.decodeD (f : Fields) (i : DevAddr → Instr) : Except Illegal Instr :=
  if f.rs = 0 ∧ f.a = 0 ∧ f.b = 0 ∧ f.w = 0 then .ok (i f.addr) else .error .reservedBit

/-- Format X, `WRS`: `A = N`, legal 1..4; `B` and the payload bytes at index `>= N` are reserved. -/
def Fields.decodeWrs (f : Fields) : Except Illegal Instr :=
  if f.b ≠ 0 then .error .reservedBit
  else if f.a.toNat = 0 ∨ Config.MAXWR < f.a.toNat then .error .payloadLength
  else if f.w >>> (8 * f.a.toNat) ≠ 0 then .error .unusedPayload
  else .ok (.wrs f.addr (payloadOf f.a.toNat f.w) (decide (f.rs = 1)))

/-- Format X, `RDS`: `A = LEN`, legal 1..8; `B` and `W` are reserved. -/
def Fields.decodeRds (f : Fields) : Except Illegal Instr :=
  if f.b ≠ 0 ∨ f.w ≠ 0 then .error .reservedBit
  else if f.a.toNat = 0 ∨ Config.MAXRD < f.a.toNat then .error .readLength
  else .ok (.rds f.addr f.a.toNat (decide (f.rs = 1)))

/-- Format R, `RRD`: `A = LEN`, legal 1..8; `B = REG`; `RS` and `W` are reserved. -/
def Fields.decodeRrd (f : Fields) : Except Illegal Instr :=
  if f.rs ≠ 0 ∨ f.w ≠ 0 then .error .reservedBit
  else if f.a.toNat = 0 ∨ Config.MAXRD < f.a.toNat then .error .readLength
  else .ok (.rrd f.addr f.b f.a.toNat)

/-- Format R, `RWR`: `B = REG`, `W[7:0] = VALUE`; `RS`, `A` and `W[31:8]` are reserved. -/
def Fields.decodeRwr (f : Fields) : Except Illegal Instr :=
  if f.rs = 0 ∧ f.a = 0 ∧ f.w &&& 0xFFFFFF00 = 0 then .ok (.rwr f.addr f.b (f.w.extractLsb' 0 8))
  else .error .reservedBit

/-- Format M: `A[1:0] = MODE`, `W[15:0] = LO`, `W[31:16] = HI`; `RS`, `A[7:2]` and `B` are reserved. -/
def Fields.decodeM (f : Fields) (i : DevAddr → Mode → Band → Band → Instr) : Except Illegal Instr :=
  if f.rs = 0 ∧ f.a &&& 0xFC = 0 ∧ f.b = 0 then
    .ok (i f.addr (Mode.ofCode (f.a.extractLsb' 0 2)) (f.w.extractLsb' 0 Config.BANDW)
      (f.w.extractLsb' Config.BANDW Config.BANDW))
  else .error .reservedBit

/-- Format P: `A[0] = OVR_EN`, `W[7:0] = OVR` (which must be 0 when `OVR_EN = 0`); `RS`, `A[7:1]`, `B` and `W[31:8]`
are reserved. -/
def Fields.decodeRdp (f : Fields) : Except Illegal Instr :=
  if f.rs ≠ 0 ∨ f.a &&& 0xFE ≠ 0 ∨ f.b ≠ 0 ∨ f.w &&& 0xFFFFFF00 ≠ 0 then .error .reservedBit
  else if f.a = 1 then .ok (.rdp f.addr (some (f.w.extractLsb' 0 8)))
  else if f.w.extractLsb' 0 8 ≠ 0 then .error .overrideDisabled
  else .ok (.rdp f.addr none)

/-- Format S: `A[1:0] = OFF`, `A[3:2] = SZ`, `A[4] = BE`, `W = VALUE32`; `ADDR`, `RS`, `A[7:5]` and `B` are reserved. -/
def Fields.decodeScs (f : Fields) : Except Illegal Instr :=
  if f.addr ≠ 0 ∨ f.rs ≠ 0 ∨ f.a &&& 0xE0 ≠ 0 ∨ f.b ≠ 0 then .error .reservedBit
  else
    match ScsSize.ofCode (f.a.extractLsb' 2 2) with
    | none => .error .scratchSize
    | some size =>
      if Config.SCRN < (f.a.extractLsb' 0 2).toNat + size.bytes then .error .scratchRange
      else .ok (.scs (f.a.extractLsb' 0 2).toFin size (f.a.getLsbD 4) f.w)

/-- R51: `OPC` selects the command. -/
def Fields.decode (f : Fields) : Except Illegal Instr :=
  match f.opc.toNat with
  | 0x01 => f.decodeInit
  | 0x02 => f.decodeZ .gerr
  | 0x03 => f.decodeWrs
  | 0x04 => f.decodeRds
  | 0x05 => f.decodeRrd
  | 0x06 => f.decodeRwr
  | 0x07 => f.decodeM .rdh
  | 0x08 => f.decodeM .rdv
  | 0x09 => f.decodeM .rda
  | 0x0A => f.decodeD .btp
  | 0x0B => f.decodeD .btw
  | 0x0C => f.decodeD .btc
  | 0x0D => f.decodeRdp
  | 0x0E => f.decodeScs
  | 0x0F => f.decodeZ .scg
  | _ => .error .reservedOpcode

/-- The command a word spells, or why it spells none (R58). -/
def decode (c : Command) : Except Illegal Instr := (Fields.ofWord c).decode

/-- The command of the opcode-table word `w`: a command is exactly 64 bits (R60), so the word is `w` itself, bits
above `nbits` being zero. -/
def decodeTableWord (nbits w : Nat) : Option Instr :=
  match decode (BitVec.ofNat Config.CMDW (w % 2 ^ nbits)) with
  | .ok i => some i
  | .error _ => none

/-- R51: the opcode of a command. -/
def Instr.opcode : Instr → BitVec 8
  | .init _ => 0x01
  | .gerr => 0x02
  | .wrs _ _ _ => 0x03
  | .rds _ _ _ => 0x04
  | .rrd _ _ _ => 0x05
  | .rwr _ _ _ => 0x06
  | .rdh _ _ _ _ => 0x07
  | .rdv _ _ _ _ => 0x08
  | .rda _ _ _ _ => 0x09
  | .btp _ => 0x0A
  | .btw _ => 0x0B
  | .btc _ => 0x0C
  | .rdp _ _ => 0x0D
  | .scs _ _ _ _ => 0x0E
  | .scg => 0x0F

/-- R52: the fields a command is written with; every bit not listed there is 0. -/
def Instr.fields : Instr → Fields
  | .init check => { opc := 0x01, addr := 0, rs := 0, a := (BitVec.ofBool check).setWidth 8, b := 0, w := 0 }
  | .gerr => { opc := 0x02, addr := 0, rs := 0, a := 0, b := 0, w := 0 }
  | .wrs addr payload rs =>
    { opc := 0x03, addr := addr, rs := BitVec.ofBool rs, a := BitVec.ofNat 8 payload.length, b := 0, w := payloadWord payload }
  | .rds addr len rs => { opc := 0x04, addr := addr, rs := BitVec.ofBool rs, a := BitVec.ofNat 8 len, b := 0, w := 0 }
  | .rrd addr reg len => { opc := 0x05, addr := addr, rs := 0, a := BitVec.ofNat 8 len, b := reg, w := 0 }
  | .rwr addr reg value => { opc := 0x06, addr := addr, rs := 0, a := 0, b := reg, w := value.setWidth 32 }
  | .rdh addr mode lo hi => { opc := 0x07, addr := addr, rs := 0, a := mode.code.setWidth 8, b := 0, w := bandWord lo hi }
  | .rdv addr mode lo hi => { opc := 0x08, addr := addr, rs := 0, a := mode.code.setWidth 8, b := 0, w := bandWord lo hi }
  | .rda addr mode lo hi => { opc := 0x09, addr := addr, rs := 0, a := mode.code.setWidth 8, b := 0, w := bandWord lo hi }
  | .btp addr => { opc := 0x0A, addr := addr, rs := 0, a := 0, b := 0, w := 0 }
  | .btw addr => { opc := 0x0B, addr := addr, rs := 0, a := 0, b := 0, w := 0 }
  | .btc addr => { opc := 0x0C, addr := addr, rs := 0, a := 0, b := 0, w := 0 }
  | .rdp addr none => { opc := 0x0D, addr := addr, rs := 0, a := 0, b := 0, w := 0 }
  | .rdp addr (some ovr) => { opc := 0x0D, addr := addr, rs := 0, a := 1, b := 0, w := ovr.setWidth 32 }
  | .scs off size be value =>
    { opc := 0x0E, addr := 0, rs := 0, b := 0, w := value
      a := (BitVec.ofBool be).setWidth 8 <<< 4 ||| size.code.setWidth 8 <<< 2 ||| BitVec.ofNat 8 off.val }
  | .scg => { opc := 0x0F, addr := 0, rs := 0, a := 0, b := 0, w := 0 }

/-- The word of a command (R50, R61). -/
def encode (i : Instr) : Command := i.fields.toWord

/-- One row of spec/opcode_table.json: a word belongs to it when `CMD and mask = pattern` (R58). -/
structure OpcodeRow where
  mnemonic : String
  pattern  : Command
  mask     : Command
deriving DecidableEq, Repr

/-- The rows of spec/opcode_table.json; a mask is `OPC` plus every bit reserved whatever the other fields hold. -/
def opcodeTable : List OpcodeRow := [
  ⟨"INIT", 0x0000000000000001, 0xFFFFFFFFFFFEFFFF⟩,
  ⟨"GERR", 0x0000000000000002, 0xFFFFFFFFFFFFFFFF⟩,
  ⟨"WRS",  0x0000000000000003, 0x00000000FF0000FF⟩,
  ⟨"RDS",  0x0000000000000004, 0xFFFFFFFFFF0000FF⟩,
  ⟨"RRD",  0x0000000000000005, 0xFFFFFFFF000080FF⟩,
  ⟨"RWR",  0x0000000000000006, 0xFFFFFF0000FF80FF⟩,
  ⟨"RDH",  0x0000000000000007, 0x00000000FFFC80FF⟩,
  ⟨"RDV",  0x0000000000000008, 0x00000000FFFC80FF⟩,
  ⟨"RDA",  0x0000000000000009, 0x00000000FFFC80FF⟩,
  ⟨"BTP",  0x000000000000000A, 0xFFFFFFFFFFFF80FF⟩,
  ⟨"BTW",  0x000000000000000B, 0xFFFFFFFFFFFF80FF⟩,
  ⟨"BTC",  0x000000000000000C, 0xFFFFFFFFFFFF80FF⟩,
  ⟨"RDP",  0x000000000000000D, 0xFFFFFF00FFFE80FF⟩,
  ⟨"SCS",  0x000000000000000E, 0x00000000FFE0FFFF⟩,
  ⟨"SCG",  0x000000000000000F, 0xFFFFFFFFFFFFFFFF⟩]

/-- A word belongs to a row of the table. -/
abbrev OpcodeRow.Holds (r : OpcodeRow) (c : Command) : Prop := c &&& r.mask = r.pattern

/-- The constraints of the table's rows: conditions 3 to 6 of R58, read off the bits of the word `c` with opcode
`CMD[7:0]`. -/
abbrev breaksConstraint (c : Command) : Prop :=
  let opc := (c.extractLsb' 0 8).toNat
  let a := c.extractLsb' 16 8
  let w := c.extractLsb' 32 32
  (opc = 0x03 ∧ (a.toNat = 0 ∨ Config.MAXWR < a.toNat)) ∨
  (opc = 0x03 ∧ w.toNat / 2 ^ (8 * a.toNat) ≠ 0) ∨
  ((opc = 0x04 ∨ opc = 0x05) ∧ (a.toNat = 0 ∨ Config.MAXRD < a.toNat)) ∨
  (opc = 0x0D ∧ a.getLsbD 0 = false ∧ w.extractLsb' 0 8 ≠ 0) ∨
  (opc = 0x0E ∧ (a.extractLsb' 2 2).toNat = 3) ∨
  (opc = 0x0E ∧ Config.SCRN < (a.extractLsb' 0 2).toNat + 2 ^ (a.extractLsb' 2 2).toNat)

/-- R58, read off the opcode table and not off the decoder: "A word that matches no row, or matches a row and breaks
one of its constraints, is `ILLEGAL`." -/
abbrev IllegalWord (c : Command) : Prop :=
  (∀ r ∈ opcodeTable, ¬ r.Holds c) ∨ breaksConstraint c

end Sys2Proof
end

