-- ==== Sys2Proof/Machine/State.lean ====
section
/-! DEFINITION. The state of JSQ (spec/10_state.md), the events of its interface (spec/40_transport.md rule R82), the
reasons a step can stop, and the state after power-on reset. -/

namespace Sys2Proof.Machine

open Sys2Proof

/-- `SEQ`, an enumeration of 10 values (R14). -/
inductive Seq where
  /-- no command in progress; the block accepts a command -/
  | idle
  /-- a command is latched in `CMDR`; the next thing to do is micro-step `k` -/
  | run (k : Fin 3)
  /-- micro-step `k` is a `TXW` whose request has been sent and not yet answered -/
  | waitW (k : Fin 3)
  /-- micro-step `k` is a `TXR` whose request has been sent and not yet answered -/
  | waitR (k : Fin 3)
deriving DecidableEq, Repr

/-- The events a run consists of (R82). -/
inductive Event where
  /-- `Accept(cmd)` -/
  | accept (cmd : Command)
  /-- `BusWriteReq(addr, bytes, rs)` -/
  | busWriteReq (addr : DevAddr) (bytes : List Byte) (rs : Bool)
  /-- `BusWriteAns(e)` -/
  | busWriteAns (e : ErrCode)
  /-- `DiagEmit(addr)` -/
  | diagEmit (addr : DevAddr)
  /-- `BusReadReq(addr, n, rs)` -/
  | busReadReq (addr : DevAddr) (n : Nat) (rs : Bool)
  /-- `BusReadAns(s)` -/
  | busReadAns (s : List Byte)
  /-- `Respond(stat, res)` -/
  | respond (stat : BitVec 1) (res : Result)
deriving DecidableEq, Repr

/-- A micro-op of a command's micro-program (R71, R72, R81). The last micro-step `RESP` is not listed: it is the step
at the index after the last micro-op. -/
inductive MicroOp where
  | txw (addr : DevAddr) (bytes : List Byte) (rs : Bool)
  | txr (addr : DevAddr) (n : Nat) (rs : Bool)
deriving DecidableEq, Repr

/-- A draw of the environment for one bus read: a request of `n` bytes is answered with the first `n` of them, so an
answer "carries exactly `n` bytes by type" (U5; log entry 3). -/
abbrev ReadDraw := Vector Byte Config.MAXRD

/-- The state of the block (R10: `ERR`, `CHK`, `SCR`, `SEQ`, `CMDR`, `BUF`) and of its ports. -/
structure State where
  /-- `ERR`, the Transaction Error State (R11) -/
  err   : ErrCode
  /-- `CHK`, the Check-Mode Flag (R12) -/
  chk   : Bool
  /-- `SCR[0..3]`, the scratch buffer (R13) -/
  scr   : Vector Byte Config.SCRN
  /-- `SEQ`, the sequencer state (R14) -/
  seq   : Seq
  /-- `CMDR`, the command word sampled at acceptance; `none` holds nothing (R15) -/
  cmdr  : Option Command
  /-- `BUF`, the byte string a `TXR` produced; `[]` holds nothing (R15) -/
  buf   : List Byte
  /-- the host's side of the command port: the words it presents, in order, not yet accepted (R70; log entry 7) -/
  cmdIn : List Command
  /-- the environment's answers to the coming `BusWrite` requests, in order; a request is unanswered while there is
  none (R8, U1; log entry 2) -/
  wrAns : List ErrCode
  /-- the environment's answers to the coming `BusRead` requests (R8, U2; log entry 2) -/
  rdAns : List ReadDraw
  /-- the events so far, oldest first (R82; log entry 8) -/
  trace : List Event
deriving DecidableEq, Repr

/-- Why the machine stops. None of these is an error of the block, which raises none (60_exceptions.md). -/
inductive Fault where
  /-- Raised by a step taken while a bus request is unanswered: "a state with no enabled step (stuck)" (R171, U8).
  Safe: the run goes on once an answer stands in `wrAns` or `rdAns` (log entry 5). -/
  | busSilent
  /-- Raised by a step at a value of `SEQ` that the latched command's micro-program does not have. R81 shows that no
  command reaches one. Safe: it only stops (log entry 10). -/
  | sequencerOffProgram
  /-- Raised by a step at which `SEQ` is not `IDLE` and `CMDR` holds nothing. R70 shows that it is not reachable.
  Safe: it only stops (log entry 10). -/
  | noCommandLatched
deriving DecidableEq, Repr

/-- Why an instruction has no meaning. A malformed word is no refusal of the model: the block answers it with
`STAT = 1` (R150). -/
inductive Refusal where
  /-- Raised by an arm of `exec` whose instruction is not modelled yet; no arm of this model does. Safe. -/
  | notModelled (mnemonic : String)
deriving DecidableEq, Repr

/-- What a step or a meaning answers. -/
abbrev Outcome := Host.Outcome State Fault Refusal

/-- The state after power-on reset (R165, R22 to R25): `ERR = 0`, `CHK = 0`, `SEQ = IDLE`, `CMDR` and `BUF` empty, `SCR`
any value, drawn once. The ports are empty (log entries 2, 7, 8). -/
def State.reset : State where
  err   := Config.porErr
  chk   := Config.porChk
  scr   := #v[Config.porScr 0, Config.porScr 1, Config.porScr 2, Config.porScr 3]
  seq   := .idle
  cmdr  := none
  buf   := []
  cmdIn := []
  wrAns := []
  rdAns := []
  trace := []

/-! One named update for each field. -/

def State.setErr (s : State) (e : ErrCode) : State := { s with err := e }
def State.setChk (s : State) (c : Bool) : State := { s with chk := c }
def State.setScr (s : State) (v : Vector Byte Config.SCRN) : State := { s with scr := v }
def State.setSeq (s : State) (q : Seq) : State := { s with seq := q }
def State.setCmdr (s : State) (c : Option Command) : State := { s with cmdr := c }
def State.setBuf (s : State) (b : List Byte) : State := { s with buf := b }
def State.setCmdIn (s : State) (l : List Command) : State := { s with cmdIn := l }
def State.setWrAns (s : State) (l : List ErrCode) : State := { s with wrAns := l }
def State.setRdAns (s : State) (l : List ReadDraw) : State := { s with rdAns := l }
/-- Record an event (R82). -/
def State.emit (s : State) (ev : Event) : State := { s with trace := s.trace ++ [ev] }

end Sys2Proof.Machine
end

