-- ==== Sys2Proof/Machine/Flags.lean ====
section
/-! DEFINITION. The derived conditions of JSQ. "The block has no status flags and no condition codes" (spec/10_state.md
rule R16); what it has is the Blocked condition (R17), the report condition of a write (R71) and "busy" (R14). -/

namespace Sys2Proof.Machine

open Sys2Proof

/-- `BLOCKED`: `CHK = 1 and ERR != 0`, never stored (R17). -/
def State.blocked (s : State) : Bool := s.chk && decide (s.err ≠ 0)

/-- The report condition of a `TXW` answered with `e`: `CHK = 1`, `ERR` was 0 before the write, `e` is non-zero (R71,
R148). -/
def State.reportDue (s : State) (e : ErrCode) : Bool := s.chk && decide (s.err = 0) && decide (e ≠ 0)

/-- "busy": `SEQ` is not `IDLE` (R14). -/
def State.busy (s : State) : Bool := decide (s.seq ≠ .idle)

end Sys2Proof.Machine
end

