-- ==== Sys2Proof/Machine/Operands.lean ====
section
/-! DEFINITION. Operand assembly and result layout: bands (spec/30_encoding.md rule R54), the bytes of an `SCS` value
(spec/43_packer.md rule R123), little-endian words (R120), byte strings in `RES` (R57). -/

namespace Sys2Proof.Machine

open Sys2Proof

/-- A deadzone band: `sext_16` of its field, not scaled (R54). -/
def bandValue (b : Band) : Int := b.toInt

/-- `zext_64(trunc_16(v))` of an axis value (R57, R99). -/
def axisField (v : Int) : Result := (BitVec.ofInt Config.VALW v).setWidth Config.RESW

/-- A boolean in one bit of `RES` (R57). -/
def boolField (b : Bool) : Result := (BitVec.ofBool b).setWidth Config.RESW

/-- `pack_bytes`: byte `i` of the string in `RES[8i+7:8i]`, the other bits 0 (R57, R77). -/
def packBytes : List Byte → Result
  | [] => 0
  | b :: bs => b.setWidth Config.RESW ||| (packBytes bs <<< 8)

/-- `LE32(b0, b1, b2, b3) = b0 | (b1 << 8) | (b2 << 16) | (b3 << 24)` (R120). -/
def le32 (b0 b1 b2 b3 : Byte) : BitVec 32 :=
  b0.setWidth 32 ||| b1.setWidth 32 <<< 8 ||| b2.setWidth 32 <<< 16 ||| b3.setWidth 32 <<< 24

/-- The bytes of `trunc_(8n)(value)`, least significant first (R123). -/
def leBytes (n : Nat) (value : BitVec 32) : List Byte :=
  [value.extractLsb' 0 8, value.extractLsb' 8 8, value.extractLsb' 16 8, value.extractLsb' 24 8].take n

/-- The bytes an `SCS` stores, at ascending offsets: least significant first if `BE = 0`, most significant first if
`BE = 1` (R123). -/
def scsBytes (size : ScsSize) (be : Bool) (value : BitVec 32) : List Byte :=
  if be then (leBytes size.bytes value).reverse else leBytes size.bytes value

/-- Store a byte string at ascending offsets of the scratch buffer, from `off` (R123). -/
def storeScr (off : Nat) : List Byte → Vector Byte Config.SCRN → Vector Byte Config.SCRN
  | [], v => v
  | b :: bs, v => storeScr (off + 1) bs (v.setIfInBounds off b)

/-- Byte `i` of `BUF`. A command's program leaves `BUF` long enough for every byte it uses (log entry 17). -/
def State.bufByte (s : State) (i : Nat) : Byte := s.buf.getD i 0

end Sys2Proof.Machine
end

