-- ==== Sys2Proof/Machine/Program.lean ====
section
/-! DEFINITION. The micro-program of every command: the table of spec/40_transport.md rule R81, with the two fixed
sequences `REGREAD` (R74) and `REGWRITE` (R75) it is built from. -/

namespace Sys2Proof.Machine

open Sys2Proof

/-- `REGREAD(addr, reg, n)`: write the register number with repeated start held, then read `n` bytes with
`repeatedStart` at its default, false (R74). -/
def regReadOps (addr : DevAddr) (reg : Byte) (n : Nat) : List MicroOp :=
  [.txw addr [reg] true, .txr addr n false]

/-- `REGWRITE(addr, reg, v)`: one transaction of two bytes, no repeated start (R75). -/
def regWriteOps (addr : DevAddr) (reg v : Byte) : List MicroOp :=
  [.txw addr [reg, v] false]

/-- The micro-ops of a command, in order, less the final `RESP` (R81), for the register map `p`. -/
def microProgram (p : Params) : Instr → List MicroOp
  | .init _ => []
  | .gerr => []
  | .wrs addr payload rs => [.txw addr payload rs]
  | .rds addr len rs => [.txr addr len rs]
  | .rrd addr reg len => regReadOps addr reg len
  | .rwr addr reg value => regWriteOps addr reg value
  | .rdh addr _ _ _ => regReadOps addr p.regXMsb 2
  | .rdv addr _ _ _ => regReadOps addr p.regYMsb 2
  | .rda addr _ _ _ => regReadOps addr p.regXMsb Config.BURSTN
  | .btp addr => regReadOps addr p.regButton 1
  | .btw addr => regReadOps addr p.regStatus 1
  | .btc addr => regWriteOps addr p.regStatus 0x00
  | .rdp addr _ => regReadOps addr p.regXMsb Config.BURSTN
  | .scs _ _ _ _ => []
  | .scg => []

end Sys2Proof.Machine
end

