-- ==== Sys2Proof/Machine/Ops.lean ====
section
/-! DEFINITION. The shared operations of JSQ: acceptance, the two micro-ops `TXW` and `TXR` with their requests and
answers (spec/40_transport.md rules R70 to R73), the error latch and the diagnostic report (spec/60_exceptions.md rules
R146, R148, R152), response and refusal (R150), and the sequencer that runs a micro-program (R14, R81). -/

namespace Sys2Proof.Machine

open Sys2Proof

/-! ## The diagnostic report -/

/-- The ASCII character of a hex digit `d < 16`; `A`..`F` in upper case when `upper` (R148, D10). -/
def hexDigit (upper : Bool) (d : Nat) : Byte :=
  if d < 10 then BitVec.ofNat 8 (0x30 + d)
  else if upper then BitVec.ofNat 8 (0x41 + (d - 10)) else BitVec.ofNat 8 (0x61 + (d - 10))

/-- The two characters of `Diag(addr)`: the high hex digit `addr[6:4]`, then the low one `addr[3:0]`, no prefix, no
terminator (R148). -/
def diagText (upper : Bool) (addr : DevAddr) : List Byte :=
  [hexDigit upper (addr.extractLsb' 4 3).toNat, hexDigit upper (addr.extractLsb' 0 4).toNat]

/-- What the diagnostic sink has received so far: the characters of every `DiagEmit` (R148, R161). -/
def State.sinkText (s : State) : List Byte :=
  s.trace.flatMap fun
    | .diagEmit addr => diagText Config.params.diagUpper addr
    | _ => []

/-! ## Acceptance, response, refusal -/

/-- Accept: the presented word is sampled into `CMDR` and `SEQ <- RUN(0)` (R70, R42); `rest` is what the host has still to
present. -/
def State.accept (s : State) (c : Command) (rest : List Command) : State :=
  (((s.setCmdIn rest).setCmdr (some c)).setSeq (.run 0)).emit (.accept c)

/-- `respond(stat, res)`: present `STAT` and `RES` and return `SEQ` to `IDLE` (R8, R57); `CMDR` and `BUF`, which live only
while a command is in progress (R10, R15), hold nothing afterwards (log entry 9). -/
def State.respond (s : State) (stat : BitVec 1) (res : Result) : State :=
  (((s.emit (.respond stat res)).setCmdr none).setBuf []).setSeq .idle

/-- `refuse ILLEGAL`: `respond(1, 0)` with no other effect (R150). -/
def State.refuseIllegal (s : State) : State := s.respond 1 0

/-! ## The micro-ops -/

/-- The micro-step after `k`: `k + 1`. No micro-program has a bus micro-op at index 2, so 2 has no successor to reach
(R81; log entry 10). -/
def nextIndex (k : Fin 3) : Fin 3 := if h : k.val + 1 < 3 then ⟨k.val + 1, h⟩ else k

/-- `TXW`, first half: send `BusWriteReq` and wait, whatever `CHK` and `ERR` are (R71). -/
def State.sendWrite (s : State) (k : Fin 3) (addr : DevAddr) (bytes : List Byte) (rs : Bool) : State :=
  (s.emit (.busWriteReq addr bytes rs)).setSeq (.waitW k)

/-- `Diag(addr)`, if the report condition holds for the answer `e` and the value `ERR` has now (R148). -/
def State.report (s : State) (addr : DevAddr) (e : ErrCode) : State :=
  if s.reportDue e then s.emit (.diagEmit addr) else s

/-- `TXW`, second half, on `BusWriteAns(e)`: `ERR <- e` always, `e = 0` included; one report on the transition from no
error to error under Check-Mode; on to the next micro-step (R71, R152). `rest` are the answers after `e`. -/
def State.takeWrite (s : State) (k : Fin 3) (addr : DevAddr) (e : ErrCode) (rest : List ErrCode) : State :=
  ((((s.emit (.busWriteAns e)).report addr e).setErr e).setWrAns rest).setSeq (.run (nextIndex k))

/-- `TXR` when Blocked: `BUF <- zeros(n)`, no bus request (R72). -/
def State.skipRead (s : State) (k : Fin 3) (n : Nat) : State :=
  (s.setBuf (List.replicate n 0)).setSeq (.run (nextIndex k))

/-- `TXR` when not Blocked, first half: send `BusReadReq` and wait (R72). -/
def State.sendRead (s : State) (k : Fin 3) (addr : DevAddr) (n : Nat) (rs : Bool) : State :=
  (s.emit (.busReadReq addr n rs)).setSeq (.waitR k)

/-- The byte string a draw answers to a request of `n` bytes (U5; log entry 3). -/
def answerBytes (n : Nat) (d : ReadDraw) : List Byte := d.toList.take n

/-- `TXR`, second half, on `BusReadAns(s)`: `BUF <- s`; `ERR` is not written (R72, R157). -/
def State.takeRead (s : State) (k : Fin 3) (n : Nat) (d : ReadDraw) (rest : List ReadDraw) : State :=
  (((s.emit (.busReadAns (answerBytes n d))).setBuf (answerBytes n d)).setRdAns rest).setSeq (.run (nextIndex k))

/-! ## The sequencer -/

/-- One micro-step at `SEQ` of the micro-program `ops` followed by the final micro-step `resp` (R70, R81). While a request
is unanswered no step is enabled (R171). -/
def microStep (ops : List MicroOp) (resp : State → State) (s : State) : Outcome :=
  match s.seq with
  | .idle => .fault .sequencerOffProgram
  | .run k =>
    match ops[k.val]? with
    | some (.txw addr bytes rs) => .next (s.sendWrite k addr bytes rs)
    | some (.txr addr n rs) => .next (if s.blocked then s.skipRead k n else s.sendRead k addr n rs)
    | none => if k.val = ops.length then .next (resp s) else .fault .sequencerOffProgram
  | .waitW k =>
    match ops[k.val]?, s.wrAns with
    | some (.txw addr _ _), e :: rest => .next (s.takeWrite k addr e rest)
    | some (.txw _ _ _), [] => .fault .busSilent
    | _, _ => .fault .sequencerOffProgram
  | .waitR k =>
    match ops[k.val]?, s.rdAns with
    | some (.txr _ n _), d :: rest => .next (s.takeRead k n d rest)
    | some (.txr _ _ _), [] => .fault .busSilent
    | _, _ => .fault .sequencerOffProgram

/-- Micro-steps one after the other until the command has responded or waits for an answer that is not there, at most
`fuel` of them. -/
def settle (ops : List MicroOp) (resp : State → State) : Nat → State → Outcome
  | 0, s => .next s
  | fuel + 1, s =>
    if s.seq = .idle then .next s
    else
      match microStep ops resp s with
      | .next s' => settle ops resp fuel s'
      | .fault .busSilent => .next s
      | o => o

/-- A command in progress is at `SEQ`; from `IDLE` it starts at micro-step 0, where acceptance puts it (R70; log entry
11). -/
def State.begun (s : State) : State :=
  match s.seq with
  | .idle => s.setSeq (.run 0)
  | _ => s

/-- Run a micro-program from where `SEQ` stands, "run-to-completion" (R40, R70): up to the response, or up to a bus
request that has no answer yet. No command takes more than five micro-steps, two of them waits (R81; log entry 4). -/
def runProgram (ops : List MicroOp) (resp : State → State) (s : State) : Outcome :=
  match microStep ops resp s.begun with
  | .next s' => settle ops resp 4 s'
  | o => o

/-- Execute a command: an ill-formed one is refused before any effect (R70, R150, R151; log entry 11), any other runs its
micro-program and its `RESP` step. -/
def runCommand (i : Instr) (resp : State → State) (s : State) : Outcome :=
  if i.wf then runProgram (microProgram Config.params i) resp s else .next s.refuseIllegal

end Sys2Proof.Machine
end

