-- ==== Sys2Proof/Machine/Button.lean ====
section
/-! DEFINITION. The Button/Status Decoder and `BTP`, `BTW`, `BTC` (spec/42_button.md). -/

namespace Sys2Proof.Machine

open Sys2Proof

/-- `PRESSED(b)`: the BUTTON register reads exactly 0 (R110). -/
def pressed (b : Byte) : Bool := decide (b = 0x00)

/-- `WASPRESSED(b)`: the STATUS register reads exactly 1 (R111). -/
def wasPressed (b : Byte) : Bool := decide (b = 0x01)

/-- `BTP`: `REGREAD(addr, REG_BUTTON, 1)`, `respond(0, PRESSED(BUF[0]))` (R112). -/
def execBtp (addr : DevAddr) (s : State) : Outcome :=
  runCommand (.btp addr) (fun s => s.respond 0 (boolField (pressed (s.bufByte 0)))) s

/-- `BTW`: `REGREAD(addr, REG_STATUS, 1)`, `respond(0, WASPRESSED(BUF[0]))` (R113). -/
def execBtw (addr : DevAddr) (s : State) : Outcome :=
  runCommand (.btw addr) (fun s => s.respond 0 (boolField (wasPressed (s.bufByte 0)))) s

/-- `BTC`: `REGWRITE(addr, REG_STATUS, 0x00)`, `respond(0, 0)` (R114). -/
def execBtc (addr : DevAddr) (s : State) : Outcome :=
  runCommand (.btc addr) (fun s => s.respond 0 0) s

end Sys2Proof.Machine
end

