-- ==== Sys2Proof/Machine/Codec.lean ====
section
/-! DEFINITION. Value Codec, Range Mapper and Deadzone Normalizer (spec/41_codec_mapper.md rules R90 to R98), on
mathematical integers (R102). -/

namespace Sys2Proof.Machine

open Sys2Proof

/-- `raw16(msb, lsb) = (msb << 8) | lsb` (R90, R33). -/
def raw16 (msb lsb : Byte) : Nat := (msb ++ lsb).toNat

/-- `decode16(msb, lsb) = raw16(msb, lsb) >> 6` (R90). -/
def decode16 (msb lsb : Byte) : Nat := raw16 msb lsb >>> 6

/-- `MAP(mode, msb, lsb)` (R92 to R95); in mode D the integer form `floor((200 * msb + 127) / 255) - 100`. -/
def mapRange : Mode → Byte → Byte → Int
  | .A, msb, lsb => (decode16 msb lsb : Int)
  | .B, msb, _ => (msb.toNat : Int)
  | .C, msb, _ => (msb.toNat : Int) - 128
  | .D, msb, _ => (((200 * msb.toNat + 127) / 255 : Nat) : Int) - 100

/-- `ZP(mode)`, the zero point of the deadzone (R96). -/
def zeroPoint : Mode → Int
  | .A => 512
  | .B => 128
  | .C => 0
  | .D => 0

/-- `normalize(v, z, lo, hi)` (R97): both band edges inclusive. -/
def normalize (v z lo hi : Int) : Int :=
  if z > v ∧ v ≥ z + lo then z
  else if z < v ∧ v ≤ z + hi then z
  else v

/-- `AXIS(mode, msb, lsb, lo, hi) = normalize(MAP(mode, msb, lsb), ZP(mode), lo, hi)` (R98). -/
def axis (mode : Mode) (msb lsb : Byte) (lo hi : Band) : Int :=
  normalize (mapRange mode msb lsb) (zeroPoint mode) (bandValue lo) (bandValue hi)

end Sys2Proof.Machine
end

