-- ==== Sys2Proof/Machine/Axis.lean ====
section
/-! DEFINITION. The axis commands `RDH`, `RDV`, `RDA` (spec/41_codec_mapper.md rules R99 to R101). -/

namespace Sys2Proof.Machine

open Sys2Proof

/-- `RDH`: `REGREAD(addr, REG_X_MSB, 2)`, `respond(0, zext_64(trunc_16(AXIS(mode, BUF[0], BUF[1], lo, hi))))` (R99). -/
def execRdh (addr : DevAddr) (mode : Mode) (lo hi : Band) (s : State) : Outcome :=
  runCommand (.rdh addr mode lo hi)
    (fun s => s.respond 0 (axisField (axis mode (s.bufByte 0) (s.bufByte 1) lo hi))) s

/-- `RDV`: as `RDH` with the Y pair (R100). -/
def execRdv (addr : DevAddr) (mode : Mode) (lo hi : Band) (s : State) : Outcome :=
  runCommand (.rdv addr mode lo hi)
    (fun s => s.respond 0 (axisField (axis mode (s.bufByte 0) (s.bufByte 1) lo hi))) s

/-- The result of `RDA` for the six bytes `[X_MSB, X_LSB, Y_MSB, Y_LSB, BUTTON, STATUS]`:
`trunc_16(h) | trunc_16(v) << 16 | p << 32 | s << 40` (R101, R57). -/
def sampleField (mode : Mode) (lo hi : Band) (b0 b1 b2 b3 b4 b5 : Byte) : Result :=
  axisField (axis mode b0 b1 lo hi) ||| axisField (axis mode b2 b3 lo hi) <<< 16 |||
    boolField (pressed b4) <<< 32 ||| boolField (wasPressed b5) <<< 40

/-- `RDA`: `REGREAD(addr, REG_X_MSB, 6)` and the Joystick Sample of the six bytes (R101). -/
def execRda (addr : DevAddr) (mode : Mode) (lo hi : Band) (s : State) : Outcome :=
  runCommand (.rda addr mode lo hi)
    (fun s => s.respond 0 (sampleField mode lo hi (s.bufByte 0) (s.bufByte 1) (s.bufByte 2) (s.bufByte 3)
      (s.bufByte 4) (s.bufByte 5))) s

end Sys2Proof.Machine
end

