-- ==== Sys2Proof/Machine/Packer.lean ====
section
/-! DEFINITION. The Transmission Packer and the scratch buffer: `RDP`, `SCS`, `SCG` (spec/43_packer.md). -/

namespace Sys2Proof.Machine

open Sys2Proof

/-- `PACK(buf, ovr_en, ovr)` on the bytes it uses: `X_MSB`, `Y_MSB`, the override or else the raw BUTTON byte, the raw
STATUS byte (R121, R185). -/
def packFrame (xMsb yMsb button status : Byte) (ovr : Option Byte) : BitVec 32 :=
  le32 xMsb yMsb (ovr.getD button) status

/-- `RDP`: `REGREAD(addr, REG_X_MSB, 6)`, `respond(0, zext_64(PACK(BUF, ovr_en, ovr)))`; `SCR` is not used (R122, R125). -/
def execRdp (addr : DevAddr) (ovr : Option Byte) (s : State) : Outcome :=
  runCommand (.rdp addr ovr)
    (fun s => s.respond 0
      ((packFrame (s.bufByte 0) (s.bufByte 2) (s.bufByte 4) (s.bufByte 5) ovr).setWidth Config.RESW)) s

/-- `SCS`: store the 1, 2 or 4 bytes of the value at `off`, `respond(0, 0)` (R123). -/
def execScs (off : Fin Config.SCRN) (size : ScsSize) (be : Bool) (value : BitVec 32) (s : State) : Outcome :=
  runCommand (.scs off size be value)
    (fun s => (s.setScr (storeScr off.val (scsBytes size be value) s.scr)).respond 0 0) s

/-- The scratch buffer read "back as one unsigned 32-bit little-endian integer" (R34, R124). -/
def scrWord (scr : Vector Byte Config.SCRN) : BitVec 32 := le32 scr[0] scr[1] scr[2] scr[3]

/-- `SCG`: `respond(0, zext_64(LE32(SCR[0], SCR[1], SCR[2], SCR[3])))` (R124). -/
def execScg (s : State) : Outcome :=
  runCommand .scg (fun s => s.respond 0 ((scrWord s.scr).setWidth Config.RESW)) s

end Sys2Proof.Machine
end

