-- ==== Sys2Proof/Machine/System.lean ====
section
/-! DEFINITION. The system commands `INIT` and `GERR` (spec/44_system.md). -/

namespace Sys2Proof.Machine

open Sys2Proof

/-- `INIT check`: `ERR <- 0`, `CHK <- check`, `respond(0, 0)` (R135, R166). -/
def execInit (check : Bool) (s : State) : Outcome :=
  runCommand (.init check) (fun s => ((s.setErr 0).setChk check).respond 0 0) s

/-- `GERR`: `respond(0, zext_64(ERR))`; `ERR` is not cleared by being read (R136). -/
def execGerr (s : State) : Outcome :=
  runCommand .gerr (fun s => s.respond 0 (s.err.setWidth Config.RESW)) s

end Sys2Proof.Machine
end

