-- ==== Sys2Proof/Machine/Transport.lean ====
section
/-! DEFINITION. The transport commands `WRS`, `RDS`, `RRD`, `RWR` (spec/40_transport.md rules R76 to R79). -/

namespace Sys2Proof.Machine

open Sys2Proof

/-- `WRS`: `TXW(addr, payload, rs)`, `respond(0, 0)` (R76). -/
def execWrs (addr : DevAddr) (payload : List Byte) (rs : Bool) (s : State) : Outcome :=
  runCommand (.wrs addr payload rs) (fun s => s.respond 0 0) s

/-- `RDS`: `TXR(addr, len, rs)`, `respond(0, pack_bytes(BUF))` (R77). -/
def execRds (addr : DevAddr) (len : Nat) (rs : Bool) (s : State) : Outcome :=
  runCommand (.rds addr len rs) (fun s => s.respond 0 (packBytes s.buf)) s

/-- `RRD`: `REGREAD(addr, reg, len)`, `respond(0, pack_bytes(BUF))` (R78). -/
def execRrd (addr : DevAddr) (reg : Byte) (len : Nat) (s : State) : Outcome :=
  runCommand (.rrd addr reg len) (fun s => s.respond 0 (packBytes s.buf)) s

/-- `RWR`: `REGWRITE(addr, reg, value)`, `respond(0, 0)` (R79). -/
def execRwr (addr : DevAddr) (reg value : Byte) (s : State) : Outcome :=
  runCommand (.rwr addr reg value) (fun s => s.respond 0 0) s

end Sys2Proof.Machine
end

