-- ==== Sys2Proof/Machine/Dispatch.lean ====
section
/-! DEFINITION. One arm for each command of JSQ (spec/30_encoding.md rule R51): the meaning of the command. -/

namespace Sys2Proof.Machine

open Sys2Proof

/-- The execution of command `i` from the sequencer position of `s` (R70). -/
def exec (i : Instr) (s : State) : Host.Outcome State Fault Refusal :=
  match i with
  | .init check => Sys2Proof.Machine.execInit check s
  | .gerr => Sys2Proof.Machine.execGerr s
  | .wrs addr payload rs => Sys2Proof.Machine.execWrs addr payload rs s
  | .rds addr len rs => Sys2Proof.Machine.execRds addr len rs s
  | .rrd addr reg len => Sys2Proof.Machine.execRrd addr reg len s
  | .rwr addr reg value => Sys2Proof.Machine.execRwr addr reg value s
  | .rdh addr mode lo hi => Sys2Proof.Machine.execRdh addr mode lo hi s
  | .rdv addr mode lo hi => Sys2Proof.Machine.execRdv addr mode lo hi s
  | .rda addr mode lo hi => Sys2Proof.Machine.execRda addr mode lo hi s
  | .btp addr => Sys2Proof.Machine.execBtp addr s
  | .btw addr => Sys2Proof.Machine.execBtw addr s
  | .btc addr => Sys2Proof.Machine.execBtc addr s
  | .rdp addr ovr => Sys2Proof.Machine.execRdp addr ovr s
  | .scs off size be value => Sys2Proof.Machine.execScs off size be value s
  | .scg => Sys2Proof.Machine.execScg s

end Sys2Proof.Machine
end

