-- ==== Sys2Proof/Machine/Step.lean ====
section
/-! DEFINITION. One step of JSQ (spec/40_transport.md rule R70): accept a presented command and execute it, or go on
with the command in progress. -/

namespace Sys2Proof.Machine

open Sys2Proof

/-- Decode and execute the command latched in `CMDR` (R70). At `RUN(0)` an `ILLEGAL` word is refused (R150); past `RUN(0)`
no `ILLEGAL` word can stand in `CMDR` (log entry 10). -/
def runLatched (s : State) : Outcome :=
  match s.cmdr with
  | none => .fault .noCommandLatched
  | some c =>
    match decode c with
    | .ok i => exec i s
    | .error _ => if s.seq = .run 0 then .next s.refuseIllegal else .fault .sequencerOffProgram

/-- One step. At `IDLE` the block accepts the word the host presents and runs the command to its response, or up to a
bus request that has no answer yet (R70; log entry 4); with no word presented it stays as it is (log entry 6). At any other `SEQ`
no command is accepted and the one in progress goes on (R70, R169). -/
def step (s : State) : Host.Outcome State Fault Refusal :=
  match s.seq with
  | .idle =>
    match s.cmdIn with
    | [] => .next s
    | c :: rest => runLatched (s.accept c rest)
  | _ => runLatched s

/-- `s` with the opcode-table word `w` as the next command the host presents, the block idle: the very next step accepts
and runs it. A program is loaded from outside by presenting its words (log entry 7). -/
def State.withFetchWord (s : State) (nbits w : Nat) : State :=
  (((s.setSeq .idle).setCmdr none).setBuf []).setCmdIn (BitVec.ofNat Config.CMDW (w % 2 ^ nbits) :: s.cmdIn)

end Sys2Proof.Machine
end

