-- ==== Sys2Proof/Safety.lean ====
section
/-! DEFINITION. The terms claims about runs are stated in: when a command is over, the invariant that ties `SEQ`, `CMDR` and
`BUF` together (spec/10_state.md rules R14, R15; spec/40_transport.md rule R81), and an observer that reads the event trace
alone and knows from it what `ERR` and `CHK` are and which event may come next (spec/40_transport.md rules R71, R72, R80, R82). -/

namespace Sys2Proof.Machine

open Sys2Proof

/-- "A command is over when its `Respond` event has occurred and `SEQ = IDLE`" (R180). -/
def State.commandOver (s : State) : Bool := decide (s.seq = .idle)

/-- The run of the presented commands is over: the last one is over and no other waits (R180). A hang is no end (R171). -/
def State.runOver (s : State) : Bool := s.commandOver && decide (s.cmdIn = [])

/-- The events of the report of a write to `addr` answered `e`, `ERR` and `CHK` as they are in `s` before it (R71, R148). -/
def State.reportEvents (s : State) (addr : DevAddr) (e : ErrCode) : List Event :=
  if s.chk = true ∧ s.err = 0 ∧ e ≠ 0 then [.diagEmit addr] else []

/-- `s` after a command that has responded with `STAT = 0` and `RES = res`, its earlier events being `events`: `SEQ = IDLE`,
the temporaries empty, and nothing else of `s` changed (R57, R70, R180). -/
def State.responded (s : State) (events : List Event) (res : Result) : State :=
  { s with seq := .idle, cmdr := none, buf := [], trace := s.trace ++ events ++ [.respond 0 res] }

/-! ## The sequencer invariant -/

/-- The micro-op at an index is a `TXW`. -/
def isTxw : Option MicroOp → Bool
  | some (.txw _ _ _) => true
  | some (.txr _ _ _) => false
  | none => false

/-- The micro-op at an index is a `TXR`. -/
def isTxr : Option MicroOp → Bool
  | some (.txr _ _ _) => true
  | some (.txw _ _ _) => false
  | none => false

/-- How many bytes `BUF` holds when micro-step `k` is next: those of the `TXR` just before it, else none (R15, R72). -/
def bufLengthAt (ops : List MicroOp) : Nat → Nat
  | 0 => 0
  | k + 1 =>
    match ops[k]? with
    | some (.txr _ n _) => n
    | some (.txw _ _ _) => 0
    | none => 0

/-- `SEQ` and `BUF` stand at a position of the micro-program `ops`. -/
def State.atPosition (s : State) (ops : List MicroOp) : Bool :=
  match s.seq with
  | .idle => false
  | .run k => decide (k.val ≤ ops.length) && decide (s.buf.length = bufLengthAt ops k.val)
  | .waitW k => isTxw ops[k.val]? && decide (s.buf = [])
  | .waitR k => isTxr ops[k.val]? && decide (s.buf = [])

/-- The sequencer invariant: at `IDLE` the temporaries hold nothing (R15, R25); otherwise `CMDR` holds a command and `SEQ` is a
position of its micro-program (R70, R81), `RUN(0)` if the word is `ILLEGAL`. -/
def State.inv (s : State) : Bool :=
  match s.seq with
  | .idle => decide (s.cmdr = none) && decide (s.buf = [])
  | q =>
    match s.cmdr with
    | none => false
    | some c =>
      match decode c with
      | .ok i => s.atPosition (microProgram Config.params i)
      | .error _ => decide (q = .run 0) && decide (s.buf = [])

/-! ## The observer of the trace -/

/-- Where in the order of R82 an observer is: between commands; in the command `c` with the micro-ops `ops` still to come; or
in the middle of a micro-op, waiting for the answer of a write or of a read of `n` bytes, or for the report of a failed write. -/
inductive Phase where
  | idle
  | doing (c : Command) (ops : List MicroOp)
  | writing (c : Command) (addr : DevAddr) (ops : List MicroOp)
  | reportOwed (c : Command) (addr : DevAddr) (ops : List MicroOp)
  | reading (c : Command) (n : Nat) (ops : List MicroOp)
deriving DecidableEq, Repr

/-- What an observer of the events knows. -/
structure Observer where
  err   : ErrCode
  chk   : Bool
  phase : Phase
deriving DecidableEq, Repr

/-- The observer at power-on reset (R165). -/
def Observer.reset : Observer := { err := Config.porErr, chk := Config.porChk, phase := .idle }

/-- The micro-ops a command word calls for; none if it is `ILLEGAL` (R81, R150). -/
def wordOps (c : Command) : List MicroOp :=
  match decode c with
  | .ok i => microProgram Config.params i
  | .error _ => []

/-- A word that spells a command (R58). -/
def wordLegal (c : Command) : Bool :=
  match decode c with
  | .ok _ => true
  | .error _ => false

/-- The Blocked condition, as the observer knows it (R17). -/
def Observer.blocked (o : Observer) : Bool := o.chk && decide (o.err ≠ 0)

/-- A command may respond with `ops` still to come: there are none, or all are reads and the block is Blocked, which skips
them (R72). -/
def Observer.mayRespond (o : Observer) (ops : List MicroOp) : Bool := ops.all fun op => o.blocked && isTxr (some op)

/-- The response a word is due: `STAT = 0`, or `STAT = 1` and `RES = 0` if it is `ILLEGAL` (R57, R150). -/
def statusFits (c : Command) (stat : BitVec 1) (res : Result) : Bool :=
  if wordLegal c then decide (stat = 0) else decide (stat = 1 ∧ res = 0)

/-- After the response: an `INIT` has set `ERR` and `CHK` (R135), no other command has (R11, R12). -/
def Observer.afterRespond (o : Observer) (c : Command) : Observer :=
  match decode c with
  | .ok (.init check) => { err := 0, chk := check, phase := .idle }
  | _ => { o with phase := .idle }

/-- The observer after one event; `none` if the event may not come here. Each micro-op of the command comes in its turn: a write
is sent whatever `ERR` is, and its answer is the new `ERR`; one report is owed on a transition from no error to error under
Check-Mode and none otherwise (R71, R80); a read is sent unless the block is Blocked (R72), and is answered with as many bytes as
asked; the response comes when no micro-op is left but reads that are skipped. -/
def Observer.see (o : Observer) (ev : Event) : Option Observer :=
  match o.phase, ev with
  | .idle, .accept c => some { o with phase := .doing c (wordOps c) }
  | .doing c (.txw addr bytes rs :: ops), .busWriteReq addr' bytes' rs' =>
    if addr' = addr ∧ bytes' = bytes ∧ rs' = rs then some { o with phase := .writing c addr ops } else none
  | .writing c addr ops, .busWriteAns e =>
    some { o with
      err := e
      phase := if o.chk = true ∧ o.err = 0 ∧ e ≠ 0 then .reportOwed c addr ops else .doing c ops }
  | .reportOwed c addr ops, .diagEmit addr' => if addr' = addr then some { o with phase := .doing c ops } else none
  | .doing c (.txr addr n rs :: ops), .busReadReq addr' n' rs' =>
    if o.blocked = false ∧ addr' = addr ∧ n' = n ∧ rs' = rs then some { o with phase := .reading c n ops } else none
  | .reading c n ops, .busReadAns s => if s.length = n then some { o with phase := .doing c ops } else none
  | .doing c ops, .respond stat res =>
    if o.mayRespond ops = true ∧ statusFits c stat res = true then some (o.afterRespond c) else none
  | _, _ => none

/-- The observer after a trace; `none` if some event of it may not come where it comes. -/
def Observer.seeAll (o : Observer) : List Event → Option Observer
  | [] => some o
  | ev :: evs =>
    match o.see ev with
    | some o' => o'.seeAll evs
    | none => none

/-- The phase the observer is in fits `SEQ`, for the word `c` with the micro-program `ops`: at `RUN(k)` the micro-ops from `k` on
are still to come, and the one before too if it was a read that was skipped. -/
def Observer.fits (o : Observer) (c : Command) (ops : List MicroOp) : Seq → Bool
  | .idle => decide (o.phase = .idle)
  | .run k =>
    decide (o.phase = .doing c (ops.drop k.val)) ||
      (o.blocked && decide (0 < k.val) && isTxr ops[k.val - 1]? && decide (o.phase = .doing c (ops.drop (k.val - 1))))
  | .waitW k =>
    match ops[k.val]? with
    | some (.txw addr _ _) => decide (o.phase = .writing c addr (ops.drop (k.val + 1)))
    | _ => false
  | .waitR k =>
    match ops[k.val]? with
    | some (.txr _ n _) => decide (o.phase = .reading c n (ops.drop (k.val + 1)))
    | _ => false

/-- The trace invariant: the trace is one the observer admits, and the observer knows `ERR`, `CHK` and where the command in
progress is. It includes that of the sequencer. -/
def State.traceInv (s : State) : Bool :=
  s.inv &&
    match Observer.reset.seeAll s.trace with
    | none => false
    | some o =>
      decide (o.err = s.err) && decide (o.chk = s.chk) &&
        (let c := s.cmdr.getD 0
         o.fits c (wordOps c) s.seq)

end Sys2Proof.Machine
end

