-- ==== Sys2Proof/Certificates/Slice0/Obligations.lean ====
section
/-! DEFINITION. The statements for the provers. Each docstring names the rule of spec/ it formalises. `exec` is stated from
`SEQ = RUN(0)`, where acceptance puts it (R70); what it does from a waiting state is in `LateAnswersChangeNothing`. That one `exec`, and so
one step, runs a command on to its response or to a request that has no answer yet is the model's choice of log entry 4; the rules
count micro-steps, which are `microStep`. -/

open Sys2Proof Sys2Proof.Machine

namespace Sys2Proof.Machine

/-- What a command does whose micro-program is one `TXW(addr, bytes, rs)` and whose result is 0 (R71, R81), once the write is
answered with `e`: exactly this state, so everything not named is unchanged. -/
def WritesBus (i : Instr) (addr : DevAddr) (bytes : List Byte) (rs : Bool) : Prop :=
  ∀ (s : State) (e : ErrCode) (ws : List ErrCode), s.seq = .run 0 → s.wrAns = e :: ws →
    exec i s = .next (({ s with err := e, wrAns := ws } : State).responded
      ([.busWriteReq addr bytes rs, .busWriteAns e] ++ s.reportEvents addr e) 0)

/-- What a command does whose micro-program is `REGREAD(addr, reg, n)` and whose result is `result` of the bytes read (R74,
R81), once the write is answered with `e`: under Check-Mode a failed write makes the read a zero fill without a bus call; else
the read is sent and, answered with `d`, gives its first `n` bytes; unanswered, the command waits. Exactly these states, so
everything not named is unchanged. -/
def ReadsRegisters (i : Instr) (addr : DevAddr) (reg : Byte) (n : Nat) (result : List Byte → Result) : Prop :=
  ∀ (s : State) (e : ErrCode) (ws : List ErrCode), s.seq = .run 0 → s.wrAns = e :: ws →
    (s.chk = true ∧ e ≠ 0 →
      exec i s = .next (({ s with err := e, wrAns := ws } : State).responded
        ([.busWriteReq addr [reg] true, .busWriteAns e] ++ s.reportEvents addr e) (result (List.replicate n 0)))) ∧
    (¬ (s.chk = true ∧ e ≠ 0) → ∀ (d : ReadDraw) (ds : List ReadDraw), s.rdAns = d :: ds →
      exec i s = .next (({ s with err := e, wrAns := ws, rdAns := ds } : State).responded
        ([.busWriteReq addr [reg] true, .busWriteAns e] ++ s.reportEvents addr e ++
          [.busReadReq addr n false, .busReadAns (d.toList.take n)]) (result (d.toList.take n)))) ∧
    (¬ (s.chk = true ∧ e ≠ 0) → s.rdAns = [] →
      exec i s = .next { s with
        err := e, wrAns := ws, seq := .waitR 1
        trace := s.trace ++ ([.busWriteReq addr [reg] true, .busWriteAns e] ++ s.reportEvents addr e ++
          [.busReadReq addr n false]) })

/-- A word with opcode `opc` that has a bit of `reserved` set spells no command (R53). -/
def RefusesReserved (opc : BitVec 8) (reserved : Command) : Prop :=
  ∀ c : Command, c.extractLsb' 0 8 = opc → c &&& reserved ≠ 0 → wordLegal c = false

/-- The bus requests and answers among events. -/
def busEvents (evs : List Event) : List Event :=
  evs.filter fun
    | .busWriteReq _ _ _ => true
    | .busWriteAns _ => true
    | .busReadReq _ _ _ => true
    | .busReadAns _ => true
    | .accept _ => false
    | .diagEmit _ => false
    | .respond _ _ => false

end Sys2Proof.Machine

/-! ## Encoding -/

/-- Decoding an encoded well-formed command gives it back, whatever its operands (R50 to R56). -/
def Obligations.DecodeOfEncodeIsTheCommand : Prop :=
  ∀ i : Instr, i.wf = true → decode (encode i) = .ok i

/-- A word that decodes has one spelling: it is the encoding of the command it decodes to, which is well-formed (R50 to R58). -/
def Obligations.EncodeOfDecodeIsTheWord : Prop :=
  ∀ (c : Command) (i : Instr), decode c = .ok i → i.wf = true ∧ encode i = c

/-- R58: a word is refused exactly when it matches no row of the opcode table or breaks a constraint of its row. -/
def Obligations.WordRefusedExactlyWhenIllegal : Prop :=
  ∀ c : Command, wordLegal c = false ↔ IllegalWord c

/-- The worked encodings of R62 and the example words of the command rules: a word for each of the fifteen opcodes (R51), each of the
four range modes (R55), each size and byte order of `SCS` (R56) and each value of a one-bit operand decodes to the command it is given
for; and the codes 0 to 3 are the modes A to D. -/
def Obligations.WorkedEncodingsDecode : Prop :=
  decode 0x0000000000000001 = .ok (.init false) ∧
  decode 0x0000000000010001 = .ok (.init true) ∧
  decode 0x0000000000000002 = .ok .gerr ∧
  decode 0x0000000800022003 = .ok (.wrs 0x20 [0x08, 0x00] false) ∧
  decode 0x000000030001A003 = .ok (.wrs 0x20 [0x03] true) ∧
  decode 0x0403020100042003 = .ok (.wrs 0x20 [0x01, 0x02, 0x03, 0x04] false) ∧
  decode 0x0000000000062004 = .ok (.rds 0x20 6 false) ∧
  decode 0x000000000008A004 = .ok (.rds 0x20 8 true) ∧
  decode 0x00000000FF087F05 = .ok (.rrd 0x7F 0xFF 8) ∧
  decode 0x0000000003062005 = .ok (.rrd 0x20 0x03 6) ∧
  decode 0x0000000008002006 = .ok (.rwr 0x20 0x08 0) ∧
  decode 0x0000001309002106 = .ok (.rwr 0x21 0x09 0x13) ∧
  decode 0x000AFFF600002007 = .ok (.rdh 0x20 .A (-10) 10) ∧
  decode 0x0000000000032007 = .ok (.rdh 0x20 .D 0 0) ∧
  decode 0x000AFFF600002008 = .ok (.rdv 0x20 .A (-10) 10) ∧
  decode 0x0007FFF900022008 = .ok (.rdv 0x20 .C (-7) 7) ∧
  decode 0x0000000000022008 = .ok (.rdv 0x20 .C 0 0) ∧
  decode 0x000AFFF600002009 = .ok (.rda 0x20 .A (-10) 10) ∧
  decode 0x0003FFFB00012009 = .ok (.rda 0x20 .B (-5) 3) ∧
  decode 0x0000000000032009 = .ok (.rda 0x20 .D 0 0) ∧
  decode 0x000000000000200A = .ok (.btp 0x20) ∧
  decode 0x000000000000200B = .ok (.btw 0x20) ∧
  decode 0x000000000000200C = .ok (.btc 0x20) ∧
  decode 0x000000AB0001200D = .ok (.rdp 0x20 (some 0xAB)) ∧
  decode 0x000000000001200D = .ok (.rdp 0x20 (some 0x00)) ∧
  decode 0x000000000000200D = .ok (.rdp 0x20 none) ∧
  decode 0x000000120000000E = .ok (.scs 0 .one false 0x12) ∧
  decode 0xFFFFFFFF0013000E = .ok (.scs 3 .one true 0xFFFFFFFF) ∧
  decode 0x000001000006000E = .ok (.scs 2 .two false 0x0100) ∧
  decode 0xFFFFFFFE0015000E = .ok (.scs 1 .two true 0xFFFFFFFE) ∧
  decode 0x123456780008000E = .ok (.scs 0 .four false 0x12345678) ∧
  decode 0x123456780018000E = .ok (.scs 0 .four true 0x12345678) ∧
  decode 0x000000000000000F = .ok .scg ∧
  Mode.ofCode 0 = .A ∧ Mode.ofCode 1 = .B ∧ Mode.ofCode 2 = .C ∧ Mode.ofCode 3 = .D

/-- R32, with the numbers of R31: the six burst registers are consecutive and ascending. -/
def Obligations.BurstRegistersAreConsecutive : Prop :=
  Config.params.Consecutive ∧ Config.params.regXMsb = 0x03 ∧ Config.params.regStatus = 0x08

/-! ## Steps -/

/-- R70, with the step of log entry 4: at `IDLE` a step samples the presented word into `CMDR`, sets `SEQ` to `RUN(0)` and executes the command the word spells;
at any other `SEQ` it goes on executing the command in `CMDR`. -/
def Obligations.StepExecutesTheDecodedCommand : Prop :=
  (∀ (s : State) (c : Command) (rest : List Command) (i : Instr),
    s.seq = .idle → s.cmdIn = c :: rest → decode c = .ok i →
    step s = exec i { s with cmdIn := rest, cmdr := some c, seq := .run 0, trace := s.trace ++ [.accept c] }) ∧
  (∀ (s : State) (c : Command) (i : Instr),
    s.seq ≠ .idle → s.cmdr = some c → decode c = .ok i → step s = exec i s)

/-- R150: an `ILLEGAL` word, by the conditions of R58, is refused: `STAT = 1`, `RES = 0`, `SEQ = IDLE`; no other register and no
port but the command port changes, and no bus or diagnostic event occurs. -/
def Obligations.IllegalWordIsRefusedWithoutEffect : Prop :=
  ∀ (s : State) (c : Command) (rest : List Command), s.seq = .idle → s.cmdIn = c :: rest → IllegalWord c →
    step s = .next { s with
      cmdIn := rest, cmdr := none, buf := [], seq := .idle, trace := s.trace ++ [.accept c, .respond 1 0] }

/-- R70, R169: while a command is in progress no step accepts another: the presented words stay, and no `Accept` occurs. -/
def Obligations.BusyBlockAcceptsNoCommand : Prop :=
  ∀ s t : State, s.seq ≠ .idle → step s = .next t →
    t.cmdIn = s.cmdIn ∧ ∃ evs : List Event, t.trace = s.trace ++ evs ∧ ∀ c : Command, Event.accept c ∉ evs

/-- R171: while a bus request is unanswered no step is enabled, whatever the host presents: the step stops, stuck (in the form of log entry
5, the fault `busSilent`). -/
def Obligations.UnansweredRequestIsStuck : Prop :=
  ∀ s : State, s.inv = true →
    ((∃ k, s.seq = .waitW k) → s.wrAns = [] → step s = .fault .busSilent) ∧
    ((∃ k, s.seq = .waitR k) → s.rdAns = [] → step s = .fault .busSilent)

/-- A step stops only in a hang: from every state that meets the sequencer invariant it is a fault exactly while a bus request is
unanswered, that fault is `busSilent`, and no step is ever refused (R147, R171). -/
def Obligations.StepStopsOnlyInAHang : Prop :=
  (∀ (s : State) (f : Fault), s.inv = true →
    (step s = .fault f ↔
      f = .busSilent ∧ ((∃ k, s.seq = .waitW k) ∧ s.wrAns = [] ∨ (∃ k, s.seq = .waitR k) ∧ s.rdAns = []))) ∧
  (∀ (s : State) (r : Refusal), step s ≠ .refused r)

/-- The model's choice of log entry 6: an idle block to which the host presents no word stays as it is. -/
def Obligations.IdleBlockWithoutCommandStays : Prop :=
  ∀ s : State, s.seq = .idle → s.cmdIn = [] → step s = .next s

/-- The model's choice of log entry 11: a term of the syntax that is no legal command is refused like an `ILLEGAL` word. -/
def Obligations.IllFormedTermIsRefused : Prop :=
  ∀ (i : Instr) (s : State), i.wf = false →
    exec i s = .next { s with seq := .idle, cmdr := none, buf := [], trace := s.trace ++ [.respond 1 0] }

/-! ## The micro-program table and the micro-ops -/

/-- R81: the micro-program of every command. -/
def Obligations.MicroProgramsAreTheTable : Prop :=
  ∀ (addr : DevAddr) (reg value : Byte) (len : Nat) (payload : List Byte) (rs check be : Bool) (mode : Mode)
    (lo hi : BitVec 16) (ovr : Option Byte) (off : Fin 4) (size : ScsSize) (v : BitVec 32),
    microProgram Config.params (.init check) = [] ∧
    microProgram Config.params .gerr = [] ∧
    microProgram Config.params (.scs off size be v) = [] ∧
    microProgram Config.params .scg = [] ∧
    microProgram Config.params (.wrs addr payload rs) = [.txw addr payload rs] ∧
    microProgram Config.params (.rds addr len rs) = [.txr addr len rs] ∧
    microProgram Config.params (.rwr addr reg value) = [.txw addr [reg, value] false] ∧
    microProgram Config.params (.btc addr) = [.txw addr [0x08, 0x00] false] ∧
    microProgram Config.params (.rrd addr reg len) = [.txw addr [reg] true, .txr addr len false] ∧
    microProgram Config.params (.rdh addr mode lo hi) = [.txw addr [0x03] true, .txr addr 2 false] ∧
    microProgram Config.params (.rdv addr mode lo hi) = [.txw addr [0x05] true, .txr addr 2 false] ∧
    microProgram Config.params (.rda addr mode lo hi) = [.txw addr [0x03] true, .txr addr 6 false] ∧
    microProgram Config.params (.rdp addr ovr) = [.txw addr [0x03] true, .txr addr 6 false] ∧
    microProgram Config.params (.btp addr) = [.txw addr [0x07] true, .txr addr 1 false] ∧
    microProgram Config.params (.btw addr) = [.txw addr [0x08] true, .txr addr 1 false]

/-- R71: a `TXW` sends its request whatever `CHK` and `ERR` are, and waits; on the answer `e` it stores `e` in `ERR`, 0 included,
reports the address exactly if `CHK = 1`, `ERR` was 0 and `e` is not, and goes on to the next micro-step. Nothing else changes. (A wait that is not
answered has the form of log entry 5, the fault `busSilent`.) -/
def Obligations.WriteStoresEveryAnswerAndReportsFirstFailure : Prop :=
  ∀ (ops : List MicroOp) (resp : State → State) (s : State) (k q : Fin 3) (addr : DevAddr) (bytes : List Byte) (rs : Bool),
    ops[k.val]? = some (.txw addr bytes rs) → q.val = k.val + 1 →
    (s.seq = .run k →
      microStep ops resp s = .next { s with seq := .waitW k, trace := s.trace ++ [.busWriteReq addr bytes rs] }) ∧
    (s.seq = .waitW k → s.wrAns = [] → microStep ops resp s = .fault .busSilent) ∧
    (s.seq = .waitW k → ∀ (e : ErrCode) (ws : List ErrCode), s.wrAns = e :: ws →
      microStep ops resp s = .next { s with
        err := e, wrAns := ws, seq := .run q
        trace := s.trace ++ .busWriteAns e :: (if s.chk = true ∧ s.err = 0 ∧ e ≠ 0 then [.diagEmit addr] else []) })

/-- R72: a `TXR` fills `BUF` with zeros and sends nothing exactly if `CHK = 1` and `ERR` is not 0; else it sends its request, waits and,
on the answer, puts the first `n` bytes of the draw into `BUF`. `ERR` is never written, nothing else changes, and there is no
report. (A wait that is not answered has the form of log entry 5.) -/
def Obligations.ReadIsSkippedExactlyWhenBlocked : Prop :=
  ∀ (ops : List MicroOp) (resp : State → State) (s : State) (k q : Fin 3) (addr : DevAddr) (n : Nat) (rs : Bool),
    ops[k.val]? = some (.txr addr n rs) → q.val = k.val + 1 →
    (s.seq = .run k → s.chk = true ∧ s.err ≠ 0 →
      microStep ops resp s = .next { s with seq := .run q, buf := List.replicate n 0 }) ∧
    (s.seq = .run k → ¬ (s.chk = true ∧ s.err ≠ 0) →
      microStep ops resp s = .next { s with seq := .waitR k, trace := s.trace ++ [.busReadReq addr n rs] }) ∧
    (s.seq = .waitR k → s.rdAns = [] → microStep ops resp s = .fault .busSilent) ∧
    (s.seq = .waitR k → ∀ (d : ReadDraw) (ds : List ReadDraw), s.rdAns = d :: ds →
      microStep ops resp s = .next { s with
        buf := d.toList.take n, rdAns := ds, seq := .run q, trace := s.trace ++ [.busReadAns (d.toList.take n)] })

/-- R14: a micro-step that changes the state moves `SEQ` by one: from `RUN(k)` to the wait for its answer, to `RUN(k+1)` past a
skipped read, or through `RESP` after the last micro-op; from a wait at `k` to `RUN(k+1)`. -/
def Obligations.SequencerAdvancesOneMicroStep : Prop :=
  ∀ (i : Instr) (resp : State → State) (s t : State),
    microStep (microProgram Config.params i) resp s = .next t →
    (∃ k, s.seq = .run k ∧ (t.seq = .waitW k ∨ t.seq = .waitR k)) ∨
    (∃ k q : Fin 3, (s.seq = .run k ∨ s.seq = .waitW k ∨ s.seq = .waitR k) ∧ q.val = k.val + 1 ∧ t.seq = .run q) ∨
    (∃ k, s.seq = .run k ∧ k.val = (microProgram Config.params i).length ∧ t = resp s)

/-- R148: a report is two characters, the high hex digit of the 7-bit address and then the low one, upper case; a command sends the
sink one exactly if the answer of its write is not 0, `CHK = 1` and `ERR` was 0. A command whose write is not answered, is already over
or does not exist, and one that is refused, sends nothing. -/
def Obligations.SinkReceivesTwoHexDigitsOnFirstFailure : Prop :=
  (∀ addr : DevAddr, diagText Config.params.diagUpper addr =
    [[0x30, 0x31, 0x32, 0x33, 0x34, 0x35, 0x36, 0x37].getD (addr.toNat / 16) 0,
     [0x30, 0x31, 0x32, 0x33, 0x34, 0x35, 0x36, 0x37, 0x38, 0x39, 0x41, 0x42, 0x43, 0x44, 0x45, 0x46].getD (addr.toNat % 16) 0]) ∧
  (∀ (i : Instr) (s t : State), exec i s = .next t →
    (∀ (addr : DevAddr) (bytes : List Byte) (rs : Bool) (ops : List MicroOp) (e : ErrCode) (ws : List ErrCode),
      i.wf = true → microProgram Config.params i = .txw addr bytes rs :: ops → s.seq = .run 0 ∨ s.seq = .waitW 0 →
      s.wrAns = e :: ws →
      t.sinkText = s.sinkText ++
        (if s.chk = true ∧ s.err = 0 ∧ e ≠ 0 then diagText Config.params.diagUpper addr else [])) ∧
    (i.wf = false ∨ (∀ addr bytes rs, MicroOp.txw addr bytes rs ∉ microProgram Config.params i) ∨ s.wrAns = [] ∨
        s.seq = .run 1 ∨ s.seq = .run 2 ∨ (∃ k, s.seq = .waitR k) →
      t.sinkText = s.sinkText))

/-- R70, R71, R81: every command that starts with a bus write sends it and, unanswered, waits, whatever `CHK` and `ERR` are; an
unanswered `RDS` that is not Blocked waits at its read. Nothing else changes. -/
def Obligations.UnansweredCommandWaits : Prop :=
  (∀ (i : Instr) (s : State) (addr : DevAddr) (bytes : List Byte) (rs : Bool) (ops : List MicroOp),
    i.wf = true → microProgram Config.params i = .txw addr bytes rs :: ops → s.seq = .run 0 → s.wrAns = [] →
    exec i s = .next { s with seq := .waitW 0, trace := s.trace ++ [.busWriteReq addr bytes rs] }) ∧
  (∀ (s : State) (addr : DevAddr) (len : Nat) (rs : Bool), 1 ≤ len → len ≤ 8 → s.seq = .run 0 →
    ¬ (s.chk = true ∧ s.err ≠ 0) → s.rdAns = [] →
    exec (.rds addr len rs) s = .next { s with seq := .waitR 0, trace := s.trace ++ [.busReadReq addr len rs] })

/-- R181, R40: it does not matter when an answer comes: a command that waited for it ends as if the answer had stood there from
the start. -/
def Obligations.LateAnswersChangeNothing : Prop :=
  (∀ (i : Instr) (s t : State) (e : ErrCode) (ws : List ErrCode),
    s.seq = .run 0 → s.wrAns = [] → exec i s = .next t → t.seq = .waitW 0 →
    exec i { t with wrAns := e :: ws } = exec i { s with wrAns := e :: ws }) ∧
  (∀ (i : Instr) (s t : State) (k : Fin 3) (d : ReadDraw) (ds : List ReadDraw),
    s.seq = .run 0 → s.rdAns = [] → exec i s = .next t → t.seq = .waitR k →
    exec i { t with rdAns := d :: ds } = exec i { s with rdAns := d :: ds })

/-! ## System commands -/

/-- R135: `INIT check` sets `ERR` to 0 and `CHK` to its operand, responds with 0, and changes nothing else; it is `ILLEGAL` with a
reserved bit set. -/
def Obligations.InitClearsErrorAndSetsCheckMode : Prop :=
  (∀ (check : Bool) (s : State), s.seq = .run 0 →
    exec (.init check) s = .next (({ s with err := 0, chk := check } : State).responded [] 0)) ∧
  RefusesReserved 0x01 0xFFFFFFFFFFFEFF00

/-- R136: `GERR` returns the latched code in `RES[31:0]` and changes nothing, `ERR` included; it is `ILLEGAL` with a reserved bit
set. -/
def Obligations.GerrReturnsTheLatchedCode : Prop :=
  (∀ s : State, s.seq = .run 0 → exec .gerr s = .next (s.responded [] (s.err.setWidth 64))) ∧
  RefusesReserved 0x02 0xFFFFFFFFFFFFFF00

/-! ## Transport commands -/

/-- R76: `WRS` of 1 to 4 bytes is one bus write of its payload with its `rs`; it is `ILLEGAL` with `n = 0`, `n > 4`, a non-zero unused
payload byte or `B` not 0. -/
def Obligations.WrsWritesItsPayload : Prop :=
  (∀ (addr : DevAddr) (payload : List Byte) (rs : Bool), 1 ≤ payload.length → payload.length ≤ 4 →
    WritesBus (.wrs addr payload rs) addr payload rs) ∧
  (∀ c : Command, c.extractLsb' 0 8 = 0x03 →
    (c.extractLsb' 16 8).toNat = 0 ∨ 4 < (c.extractLsb' 16 8).toNat ∨
      (c.extractLsb' 32 32).toNat / 2 ^ (8 * (c.extractLsb' 16 8).toNat) ≠ 0 ∨ c.extractLsb' 24 8 ≠ 0 →
    wordLegal c = false)

/-- R77: `RDS` returns the bytes of one bus read, or zeros with no bus event when Blocked; it writes no state but its response, `ERR`
included; it is `ILLEGAL` with `len = 0`, `len > 8`, `B` or `W` not 0. -/
def Obligations.RdsReadsOrZeroFills : Prop :=
  (∀ (addr : DevAddr) (len : Nat) (rs : Bool) (s : State), 1 ≤ len → len ≤ 8 → s.seq = .run 0 →
    (s.chk = true ∧ s.err ≠ 0 → exec (.rds addr len rs) s = .next (s.responded [] 0)) ∧
    (¬ (s.chk = true ∧ s.err ≠ 0) → ∀ (d : ReadDraw) (ds : List ReadDraw), s.rdAns = d :: ds →
      exec (.rds addr len rs) s = .next (({ s with rdAns := ds } : State).responded
        [.busReadReq addr len rs, .busReadAns (d.toList.take len)] (packBytes (d.toList.take len))))) ∧
  (∀ c : Command, c.extractLsb' 0 8 = 0x04 →
    (c.extractLsb' 16 8).toNat = 0 ∨ 8 < (c.extractLsb' 16 8).toNat ∨ c.extractLsb' 24 8 ≠ 0 ∨ c.extractLsb' 32 32 ≠ 0 →
    wordLegal c = false)

/-- R78: `RRD` is `REGREAD(addr, reg, len)` of any register number, and returns the bytes; it is `ILLEGAL` with `len = 0`, `len > 8`,
`RS` or `W` not 0. -/
def Obligations.RrdReadsAnyRegister : Prop :=
  (∀ (addr : DevAddr) (reg : Byte) (len : Nat), 1 ≤ len → len ≤ 8 →
    ReadsRegisters (.rrd addr reg len) addr reg len packBytes) ∧
  (∀ c : Command, c.extractLsb' 0 8 = 0x05 →
    (c.extractLsb' 16 8).toNat = 0 ∨ 8 < (c.extractLsb' 16 8).toNat ∨ c.extractLsb' 15 1 ≠ 0 ∨ c.extractLsb' 32 32 ≠ 0 →
    wordLegal c = false)

/-- R79: `RWR` is one bus write `[reg, value]` with no repeated start, to any register number; it is `ILLEGAL` with `RS`, `A` or
`W[31:8]` not 0. -/
def Obligations.RwrWritesAnyRegister : Prop :=
  (∀ (addr : DevAddr) (reg value : Byte), WritesBus (.rwr addr reg value) addr [reg, value] false) ∧
  RefusesReserved 0x06 0xFFFFFF0000FF8000

/-- The layout of a returned byte string (R57): byte `i` is `RES[8i+7:8i]`, every other bit 0. -/
def Obligations.ReturnedBytesStandInOrder : Prop :=
  ∀ bs : List Byte, bs.length ≤ 8 → ∀ j : Nat, j < 8 → (packBytes bs).extractLsb' (8 * j) 8 = bs.getD j 0

/-- R74: under Check-Mode a register-addressed read goes to the bus exactly when its own register-number write succeeded, whatever
`ERR` was before. -/
def Obligations.RegisterReadReachesBusExactlyAfterOwnSuccess : Prop :=
  ∀ (i : Instr) (s t : State) (addr : DevAddr) (reg : Byte) (n : Nat) (e : ErrCode) (ws : List ErrCode),
    i.wf = true → microProgram Config.params i = [.txw addr [reg] true, .txr addr n false] →
    s.seq = .run 0 → s.chk = true → s.wrAns = e :: ws → exec i s = .next t →
    (Event.busReadReq addr n false ∈ t.trace.drop s.trace.length ↔ e = 0)

/-! ## Axis commands -/

/-- R90: `decode16` is the 16-bit big-endian pair divided by 64, rounded down, and lies in 0..1023. -/
def Obligations.DecodeOfPairIsShiftBySix : Prop :=
  ∀ msb lsb : Byte, decode16 msb lsb = (256 * msb.toNat + lsb.toNat) / 64 ∧
    decode16 msb lsb = 4 * msb.toNat + lsb.toNat / 64 ∧ decode16 msb lsb ≤ 1023

/-- R92, R93, R94, R96: the maps of modes A, B, C and the zero points of the four modes. -/
def Obligations.RangeMapsAndZeroPoints : Prop :=
  (∀ msb lsb : Byte, mapRange .A msb lsb = (decode16 msb lsb : Int) ∧ mapRange .B msb lsb = (msb.toNat : Int) ∧
    mapRange .C msb lsb = (msb.toNat : Int) - 128) ∧
  zeroPoint .A = 512 ∧ zeroPoint .B = 128 ∧ zeroPoint .C = 0 ∧ zeroPoint .D = 0

/-- R95: mode D is the integer nearest to `-100 + msb * 200 / 255` (the distance is below one half, so there is no tie), both
integer formulas of the rule give it, and the check points hold. -/
def Obligations.ModeDIsTheNearestInteger : Prop :=
  (∀ msb lsb : Byte,
    2 * |255 * mapRange .D msb lsb - (200 * (msb.toNat : Int) - 25500)| < 255 ∧
    mapRange .D msb lsb = (200 * (msb.toNat : Int) + 127) / 255 - 100 ∧
    mapRange .D msb lsb = (400 * (msb.toNat : Int) - 50745) / 510) ∧
  (∀ lsb : Byte, mapRange .D 0 lsb = -100 ∧ mapRange .D 64 lsb = -50 ∧ mapRange .D 127 lsb = 0 ∧ mapRange .D 128 lsb = 0 ∧
    mapRange .D 255 lsb = 100)

/-- R97: a value below the zero point and not below `z + lo`, or above it and not above `z + hi`, becomes the zero point; any other
value stays; applying it twice is applying it once; the corrected boundary examples hold. -/
def Obligations.DeadzoneCollapsesExactlyTheBand : Prop :=
  (∀ v z lo hi : Int,
    ((z + lo ≤ v ∧ v < z) ∨ (z < v ∧ v ≤ z + hi) → normalize v z lo hi = z) ∧
    (¬ ((z + lo ≤ v ∧ v < z) ∨ (z < v ∧ v ≤ z + hi)) → normalize v z lo hi = v) ∧
    normalize (normalize v z lo hi) z lo hi = normalize v z lo hi) ∧
  normalize 502 512 (-10) 10 = 512 ∧ normalize 501 512 (-10) 10 = 501 ∧ normalize 522 512 (-10) 10 = 512 ∧
  normalize 523 512 (-10) 10 = 523

/-- R102, R57: an axis value stays in the range of its mode whatever the bands, so `sext_16(RES[15:0])` recovers it exactly. -/
def Obligations.AxisValueIsRecoveredFromResult : Prop :=
  ∀ (mode : Mode) (msb lsb : Byte) (lo hi : BitVec 16),
    (mode = .A → 0 ≤ axis mode msb lsb lo hi ∧ axis mode msb lsb lo hi ≤ 1023) ∧
    (mode = .B → 0 ≤ axis mode msb lsb lo hi ∧ axis mode msb lsb lo hi ≤ 255) ∧
    (mode = .C → -128 ≤ axis mode msb lsb lo hi ∧ axis mode msb lsb lo hi ≤ 127) ∧
    (mode = .D → -100 ≤ axis mode msb lsb lo hi ∧ axis mode msb lsb lo hi ≤ 100) ∧
    ((axisField (axis mode msb lsb lo hi)).extractLsb' 0 16).toInt = axis mode msb lsb lo hi

/-- R104: every map is non-decreasing in `raw16`; mode D is antisymmetric; mode B is mode A without its two low bits; the deadzone
never moves a value away from the zero point nor across it. -/
def Obligations.MapperAndDeadzoneLaws : Prop :=
  (∀ (mode : Mode) (m l m' l' : Byte), raw16 m l ≤ raw16 m' l' → mapRange mode m l ≤ mapRange mode m' l') ∧
  (∀ m l l' : Byte, mapRange .D (255 - m) l' = - mapRange .D m l) ∧
  (∀ m l : Byte, mapRange .A m l / 4 = mapRange .B m l) ∧
  (∀ v z lo hi : Int, |normalize v z lo hi - z| ≤ |v - z| ∧ 0 ≤ (normalize v z lo hi - z) * (v - z))

/-- R105: a zero-filled pair maps to 0, 0, -128, -100 in modes A, B, C, D, which the default bands leave alone. -/
def Obligations.ZeroFillReadsAsFullDeflection : Prop :=
  axis .A 0 0 0 0 = 0 ∧ axis .B 0 0 0 0 = 0 ∧ axis .C 0 0 0 0 = -128 ∧ axis .D 0 0 0 0 = -100

/-- R99: `RDH` is `REGREAD` of two bytes from X_MSB and returns the axis value of them in `RES[15:0]`; it is `ILLEGAL` with `RS`,
`A[7:2]` or `B` not 0. -/
def Obligations.RdhReturnsTheHorizontalAxis : Prop :=
  (∀ (addr : DevAddr) (mode : Mode) (lo hi : BitVec 16),
    ReadsRegisters (.rdh addr mode lo hi) addr Config.params.regXMsb 2 fun bs =>
      (BitVec.ofInt 16 (normalize (mapRange mode (bs.getD 0 0) (bs.getD 1 0)) (zeroPoint mode) lo.toInt hi.toInt)).setWidth 64) ∧
  RefusesReserved 0x07 0x00000000FFFC8000

/-- R100: `RDV` is `RDH` with the Y pair. -/
def Obligations.RdvReturnsTheVerticalAxis : Prop :=
  (∀ (addr : DevAddr) (mode : Mode) (lo hi : BitVec 16),
    ReadsRegisters (.rdv addr mode lo hi) addr Config.params.regYMsb 2 fun bs =>
      (BitVec.ofInt 16 (normalize (mapRange mode (bs.getD 0 0) (bs.getD 1 0)) (zeroPoint mode) lo.toInt hi.toInt)).setWidth 64) ∧
  RefusesReserved 0x08 0x00000000FFFC8000

/-- R101: `RDA` is `REGREAD` of six bytes from X_MSB and returns both axis values, under one mode and one pair of bands, with the
two decoded button bytes; every other bit of `RES` is 0; it is `ILLEGAL` with a reserved bit set. -/
def Obligations.RdaReturnsTheJoystickSample : Prop :=
  (∀ (addr : DevAddr) (mode : Mode) (lo hi : BitVec 16),
    ReadsRegisters (.rda addr mode lo hi) addr Config.params.regXMsb 6 fun bs =>
      (BitVec.ofInt 16 (normalize (mapRange mode (bs.getD 0 0) (bs.getD 1 0)) (zeroPoint mode) lo.toInt hi.toInt)).setWidth 64 |||
      (BitVec.ofInt 16 (normalize (mapRange mode (bs.getD 2 0) (bs.getD 3 0)) (zeroPoint mode) lo.toInt hi.toInt)).setWidth 64 <<< 16 |||
      (if bs.getD 4 0 = 0x00 then (1 : Result) else 0) <<< 32 ||| (if bs.getD 5 0 = 0x01 then (1 : Result) else 0) <<< 40) ∧
  RefusesReserved 0x09 0x00000000FFFC8000

/-! ## Button commands -/

/-- R110, R111: the two decodes, on all 256 byte values. -/
def Obligations.ButtonBytesDecode : Prop :=
  ∀ b : Byte, (pressed b = true ↔ b = 0x00) ∧ (wasPressed b = true ↔ b = 0x01)

/-- R112: `BTP` is `REGREAD` of one byte of BUTTON; `RES[0]` is 1 exactly if the byte is 0, so a Blocked `BTP` answers 1; it is
`ILLEGAL` with a reserved bit set. -/
def Obligations.BtpReturnsPressed : Prop :=
  (∀ addr : DevAddr,
    ReadsRegisters (.btp addr) addr Config.params.regButton 1 fun bs => if bs.getD 0 0 = 0x00 then 1 else 0) ∧
  RefusesReserved 0x0A 0xFFFFFFFFFFFF8000

/-- R113: `BTW` is `REGREAD` of one byte of STATUS; `RES[0]` is 1 exactly if the byte is 1, so a Blocked `BTW` answers 0; it is
`ILLEGAL` with a reserved bit set. -/
def Obligations.BtwReturnsWasPressed : Prop :=
  (∀ addr : DevAddr,
    ReadsRegisters (.btw addr) addr Config.params.regStatus 1 fun bs => if bs.getD 0 0 = 0x01 then 1 else 0) ∧
  RefusesReserved 0x0B 0xFFFFFFFFFFFF8000

/-- R114: `BTC` is one bus write `[STATUS, 0]` with no repeated start, Blocked or not; it is `ILLEGAL` with a reserved bit set. -/
def Obligations.BtcClearsTheStatusRegister : Prop :=
  (∀ addr : DevAddr, WritesBus (.btc addr) addr [Config.params.regStatus, 0x00] false) ∧
  RefusesReserved 0x0C 0xFFFFFFFFFFFF8000

/-- R62: `BTC addr` has the same bus activity and the same state effect as `RWR addr, STATUS, 0`. -/
def Obligations.BtcActsAsRwrOfZeroToStatus : Prop :=
  ∀ (addr : DevAddr) (s : State), exec (.btc addr) s = exec (.rwr addr Config.params.regStatus 0) s

/-! ## Packer and scratch buffer -/

/-- R120: `LE32` is the little-endian number of its four bytes. -/
def Obligations.LittleEndianWordOfFourBytes : Prop :=
  ∀ b0 b1 b2 b3 : Byte,
    (le32 b0 b1 b2 b3).toNat = b0.toNat + 2 ^ 8 * b1.toNat + 2 ^ 16 * b2.toNat + 2 ^ 24 * b3.toNat

/-- R122, R121: `RDP` is `REGREAD` of six bytes from X_MSB and returns the word of bytes 0, 2, the override or else byte 4, and 5,
raw; a Blocked `RDP` returns the override shifted by 16, or 0; `SCR` is not touched; it is `ILLEGAL` with a reserved bit set, or with
`OVR_EN = 0` and `W[7:0]` not 0. -/
def Obligations.RdpReturnsThePackedFrame : Prop :=
  (∀ (addr : DevAddr) (ovr : Option Byte),
    ReadsRegisters (.rdp addr ovr) addr Config.params.regXMsb 6 fun bs =>
      (le32 (bs.getD 0 0) (bs.getD 2 0) (ovr.getD (bs.getD 4 0)) (bs.getD 5 0)).setWidth 64) ∧
  (∀ ovr : Option Byte, le32 0 0 (ovr.getD 0) 0 = (ovr.getD 0).setWidth 32 <<< 16) ∧
  RefusesReserved 0x0D 0xFFFFFF00FFFE8000 ∧
  (∀ c : Command, c.extractLsb' 0 8 = 0x0D → c.extractLsb' 16 1 = 0 → c.extractLsb' 32 8 ≠ 0 → wordLegal c = false)

/-- R123: `SCS` stores the `n` bytes of the value at `off`, in the chosen byte order, keeps every other scratch byte, responds with 0
and changes nothing else, Blocked or not; it is `ILLEGAL` with `SZ = 3`, `off + n > 4` or a reserved bit set. -/
def Obligations.ScsStoresTheValueBytes : Prop :=
  (∀ (off : Fin 4) (size : ScsSize) (be : Bool) (value : BitVec 32) (s : State),
    off.val + size.bytes ≤ 4 → s.seq = .run 0 →
    ∃ v : Vector Byte 4, exec (.scs off size be value) s = .next (({ s with scr := v } : State).responded [] 0) ∧
      ∀ j : Fin 4, v[j] =
        if off.val ≤ j.val ∧ j.val < off.val + size.bytes then
          (if be then value.extractLsb' (8 * (size.bytes - 1 - (j.val - off.val))) 8
           else value.extractLsb' (8 * (j.val - off.val)) 8)
        else s.scr[j]) ∧
  RefusesReserved 0x0E 0x00000000FFE0FF00 ∧
  (∀ c : Command, c.extractLsb' 0 8 = 0x0E →
    (c.extractLsb' 18 2).toNat = 3 ∨ 4 < (c.extractLsb' 16 2).toNat + 2 ^ (c.extractLsb' 18 2).toNat → wordLegal c = false)

/-- R124: `SCG` returns the scratch buffer as a little-endian word and changes nothing; it is `ILLEGAL` with a reserved bit set. -/
def Obligations.ScgReturnsTheScratchWord : Prop :=
  (∀ s : State, s.seq = .run 0 →
    exec .scg s = .next (s.responded [] ((le32 s.scr[0] s.scr[1] s.scr[2] s.scr[3]).setWidth 64))) ∧
  RefusesReserved 0x0F 0xFFFFFFFFFFFFFF00

/-- R127: four one-byte stores and `SCG`, presented as words and run step by step, return `LE32` of the four bytes, and one store of a
32-bit little-endian value and `SCG` return the value; nothing but `SCR` and the ports changes. -/
def Obligations.StagedBytesReadBackAsTheWord : Prop :=
  (∀ (s : State) (b0 b1 b2 b3 : Byte) (rest : List Command), s.seq = .idle → s.cmdr = none → s.buf = [] →
    s.cmdIn = encode (.scs 0 .one false (b0.setWidth 32)) :: encode (.scs 1 .one false (b1.setWidth 32)) ::
      encode (.scs 2 .one false (b2.setWidth 32)) :: encode (.scs 3 .one false (b3.setWidth 32)) :: encode .scg :: rest →
    ∃ evs : List Event, Host.Core.run Sys2Proof.core 5 s = .next { s with
      scr := #v[b0, b1, b2, b3], cmdIn := rest
      trace := s.trace ++ evs ++ [.respond 0 ((le32 b0 b1 b2 b3).setWidth 64)] }) ∧
  (∀ (s : State) (w : BitVec 32) (rest : List Command), s.seq = .idle → s.cmdr = none → s.buf = [] →
    s.cmdIn = encode (.scs 0 .four false w) :: encode .scg :: rest →
    ∃ (v : Vector Byte 4) (evs : List Event), Host.Core.run Sys2Proof.core 2 s = .next { s with
      scr := v, cmdIn := rest, trace := s.trace ++ evs ++ [.respond 0 (w.setWidth 64)] })

/-- R76: `WRS addr, [reg], 1` and then `RDS addr, len, 0` make the same bus calls as `RRD addr, reg, len`, latch the same code and
return the same result. -/
def Obligations.RawPairActsAsRegisterRead : Prop :=
  ∀ (s t u : State) (addr : DevAddr) (reg : Byte) (len : Nat), 1 ≤ len → len ≤ 8 → s.seq = .idle →
    s.wrAns ≠ [] → s.rdAns ≠ [] →
    Host.Core.run Sys2Proof.core 2 { s with cmdIn := [encode (.wrs addr [reg] true), encode (.rds addr len false)] } = .next t →
    step { s with cmdIn := [encode (.rrd addr reg len)] } = .next u →
    t.err = u.err ∧ t.seq = u.seq ∧ t.wrAns = u.wrAns ∧ t.rdAns = u.rdAns ∧
      busEvents (t.trace.drop s.trace.length) = busEvents (u.trace.drop s.trace.length) ∧
      t.trace.getLast? = u.trace.getLast?

/-! ## The whole machine -/

/-- R165: power-on reset leaves `ERR = 0`, `CHK = 0`, `SEQ = IDLE`, `CMDR` and `BUF` empty, and no event has occurred. (What `SCR` holds is
a free value, and nothing is said of it.) -/
def Obligations.PowerOnStateIsAsStated : Prop :=
  State.reset.err = 0 ∧ State.reset.chk = false ∧ State.reset.seq = .idle ∧ State.reset.cmdr = none ∧
    State.reset.buf = [] ∧ State.reset.trace = []

/-- R27, R11, R12, R13: only `INIT` writes `CHK`, only `SCS` writes `SCR`, only `INIT` and a consumed write answer write `ERR`; a command
takes at most one answer of each kind and none of a kind its micro-program does not ask for; and no command touches the words
presented after it. For every command, legal or not, from every state. -/
def Obligations.CommandsWriteOnlyTheirState : Prop :=
  ∀ (i : Instr) (s t : State), exec i s = .next t →
    ((∀ check, i ≠ .init check) → t.chk = s.chk) ∧
    ((∀ off size be value, i ≠ .scs off size be value) → t.scr = s.scr) ∧
    ((∀ check, i ≠ .init check) → (t.err = s.err ∧ t.wrAns = s.wrAns) ∨ s.wrAns = t.err :: t.wrAns) ∧
    (t.rdAns = s.rdAns ∨ ∃ d, s.rdAns = d :: t.rdAns) ∧
    ((∀ addr bytes rs, MicroOp.txw addr bytes rs ∉ microProgram Config.params i) → t.wrAns = s.wrAns) ∧
    ((∀ addr n rs, MicroOp.txr addr n rs ∉ microProgram Config.params i) → t.rdAns = s.rdAns) ∧
    t.cmdIn = s.cmdIn

/-- R182: if every request is answered, every legal command responds, `STAT = 0`, in one run from `RUN(0)`. -/
def Obligations.AnsweredCommandResponds : Prop :=
  ∀ (i : Instr) (s : State), i.wf = true → s.seq = .run 0 → s.wrAns ≠ [] → s.rdAns ≠ [] →
    ∃ (t : State) (res : Result), exec i s = .next t ∧ t.seq = .idle ∧ t.trace.getLast? = some (.respond 0 res)

/-- The model's choice of log entry 4: a step runs a command on to its response or to a request that has no answer yet, so no step leaves
`SEQ` at a `RUN(k)`, which R81 counts among the reachable values and the model passes through inside a step. Of the other values a step
leaves only `IDLE`, `WAITW(0)`, `WAITR(0)` and `WAITR(1)`, the ones R81 lists. -/
def Obligations.StepLeavesAReachableSequencerState : Prop :=
  ∀ s t : State, step s = .next t →
    t.seq = .idle ∨ t.seq = .waitW 0 ∨ t.seq = .waitR 0 ∨ t.seq = .waitR 1

/-- R14, R15, R70: every step keeps the sequencer invariant: the temporaries hold nothing at `IDLE`, and otherwise `SEQ` and `BUF` stand
at a position of the micro-program of the command in `CMDR`. -/
def Obligations.StepKeepsSequencerInvariant : Prop :=
  ∀ s t : State, s.inv = true → step s = .next t → t.inv = true

/-- Power-on reset meets the sequencer invariant. -/
def Obligations.ResetMeetsSequencerInvariant : Prop :=
  State.reset.inv = true

/-- R82, R71, R72, R80, R81, R11, R12: every step keeps the trace one that the observer admits, and the observer knows `ERR`, `CHK` and
the command's progress from the trace alone: each command's micro-ops come in their order, a read is left out exactly while Blocked,
each failing write after a success (or after `INIT` or power-on) under Check-Mode is reported once and no other is, and `ERR` is the
code of the latest write attempt, or 0 if an `INIT` came later. -/
def Obligations.StepKeepsTraceInvariant : Prop :=
  ∀ s t : State, s.traceInv = true → step s = .next t → t.traceInv = true

/-- Power-on reset meets the trace invariant. -/
def Obligations.ResetMeetsTraceInvariant : Prop :=
  State.reset.traceInv = true
end

