-- ==== Sys2Proof/Laws/Encoding.lean ====
section
/-! SUPPORT. Lemmas about the fields of a command word (spec/30_encoding.md rules R50 to R58). -/

namespace Sys2Proof

/-- Taking a word apart gives back the fields it was put together from. -/
@[simp] theorem Fields.ofWord_toWord (f : Fields) : Fields.ofWord f.toWord = f := by
  cases f
  simp only [Fields.ofWord, Fields.toWord, Fields.mk.injEq]
  refine ⟨?_, ?_, ?_, ?_, ?_, ?_⟩ <;>
  · apply BitVec.eq_of_getLsbD_eq
    intro i hi
    simp only [BitVec.getLsbD_extractLsb', BitVec.getLsbD_or, BitVec.getLsbD_shiftLeft, BitVec.getLsbD_setWidth]
    interval_cases i <;> simp [BitVec.getLsbD_of_ge]

/-- Putting the fields of a word together gives back the word. -/
@[simp] theorem Fields.toWord_ofWord (c : Command) : (Fields.ofWord c).toWord = c := by
  unfold Fields.ofWord Fields.toWord
  apply BitVec.eq_of_getLsbD_eq
  intro i hi
  simp only [BitVec.getLsbD_extractLsb', BitVec.getLsbD_or, BitVec.getLsbD_shiftLeft, BitVec.getLsbD_setWidth]
  interval_cases i <;> simp

/-- Two words are equal exactly when their fields are. -/
theorem Fields.ofWord_inj {c d : Command} : Fields.ofWord c = Fields.ofWord d ↔ c = d :=
  ⟨fun h => by rw [← Fields.toWord_ofWord c, h, Fields.toWord_ofWord], fun h => by rw [h]⟩

/-- A mask acts on each field by itself. -/
theorem Fields.ofWord_and (c m : Command) :
    Fields.ofWord (c &&& m) =
      { opc := (Fields.ofWord c).opc &&& (Fields.ofWord m).opc, addr := (Fields.ofWord c).addr &&& (Fields.ofWord m).addr
        rs := (Fields.ofWord c).rs &&& (Fields.ofWord m).rs, a := (Fields.ofWord c).a &&& (Fields.ofWord m).a
        b := (Fields.ofWord c).b &&& (Fields.ofWord m).b, w := (Fields.ofWord c).w &&& (Fields.ofWord m).w } := by
  simp [Fields.ofWord, BitVec.extractLsb'_and]

/-- A word belongs to a row of the opcode table exactly when each field does. -/
theorem OpcodeRow.holds_iff_fields (r : OpcodeRow) (c : Command) :
    r.Holds c ↔
      (Fields.ofWord c).opc &&& (Fields.ofWord r.mask).opc = (Fields.ofWord r.pattern).opc ∧
      (Fields.ofWord c).addr &&& (Fields.ofWord r.mask).addr = (Fields.ofWord r.pattern).addr ∧
      (Fields.ofWord c).rs &&& (Fields.ofWord r.mask).rs = (Fields.ofWord r.pattern).rs ∧
      (Fields.ofWord c).a &&& (Fields.ofWord r.mask).a = (Fields.ofWord r.pattern).a ∧
      (Fields.ofWord c).b &&& (Fields.ofWord r.mask).b = (Fields.ofWord r.pattern).b ∧
      (Fields.ofWord c).w &&& (Fields.ofWord r.mask).w = (Fields.ofWord r.pattern).w := by
  rw [OpcodeRow.Holds, ← Fields.ofWord_inj, Fields.ofWord_and]
  constructor
  · intro h
    rw [← h]
    simp
  · rintro ⟨h1, h2, h3, h4, h5, h6⟩
    simp [h1, h2, h3, h4, h5, h6]

/-- No two rows of the opcode table share a word. -/
theorem opcodeTable_disjoint :
    opcodeTable.Pairwise fun r r' => r.pattern &&& r'.mask ≠ r'.pattern &&& r.mask := by
  decide

/-- Every range mode is the mode of its code. -/
@[simp] theorem Mode.ofCode_code (m : Mode) : Mode.ofCode m.code = m := by
  cases m <;> rfl

/-- Every mode code is the code of its mode. -/
@[simp] theorem Mode.code_ofCode (m : BitVec 2) : (Mode.ofCode m).code = m := by
  revert m
  decide

/-- Every size is the size of its code. -/
@[simp] theorem ScsSize.ofCode_code (z : ScsSize) : ScsSize.ofCode z.code = some z := by
  cases z <;> rfl

/-- A size is read from one code only. -/
theorem ScsSize.code_of_ofCode {z : BitVec 2} {size : ScsSize} (h : ScsSize.ofCode z = some size) : size.code = z := by
  revert z size
  decide

/-- The low band of a band pair. -/
@[simp] theorem bandWord_lo (lo hi : BitVec 16) : (bandWord lo hi).extractLsb' 0 16 = lo := by
  apply BitVec.eq_of_getLsbD_eq
  intro i hi'
  simp only [bandWord, BitVec.getLsbD_extractLsb', BitVec.getLsbD_or, BitVec.getLsbD_shiftLeft, BitVec.getLsbD_setWidth]
  interval_cases i <;> simp

/-- The high band of a band pair. -/
@[simp] theorem bandWord_hi (lo hi : BitVec 16) : (bandWord lo hi).extractLsb' 16 16 = hi := by
  apply BitVec.eq_of_getLsbD_eq
  intro i hi'
  simp only [bandWord, BitVec.getLsbD_extractLsb', BitVec.getLsbD_or, BitVec.getLsbD_shiftLeft, BitVec.getLsbD_setWidth]
  interval_cases i <;> simp [BitVec.getLsbD_of_ge]

/-- A band pair is made of its two halves. -/
@[simp] theorem bandWord_halves (w : BitVec 32) : bandWord (w.extractLsb' 0 16) (w.extractLsb' 16 16) = w := by
  apply BitVec.eq_of_getLsbD_eq
  intro i hi
  simp only [bandWord, BitVec.getLsbD_extractLsb', BitVec.getLsbD_or, BitVec.getLsbD_shiftLeft, BitVec.getLsbD_setWidth]
  interval_cases i <;> simp

/-! ## Payload and value bytes in `W` -/

/-- The bytes of a `WRS` payload, laid into `W` and read back (R54). -/
theorem payloadOf_payloadWord : ∀ payload : List Byte, 1 ≤ payload.length → payload.length ≤ 4 →
    payloadOf payload.length (payloadWord payload) = payload
  | [], h, _ => absurd h (by simp)
  | _ :: _ :: _ :: _ :: _ :: _, _, h => absurd h (by simp)
  | [a], _, _ => by
    simp only [payloadOf, payloadWord, List.length, List.take, List.cons.injEq, and_true]
    apply BitVec.eq_of_getLsbD_eq
    intro i hi
    simp only [BitVec.getLsbD_extractLsb', BitVec.getLsbD_or, BitVec.getLsbD_shiftLeft, BitVec.getLsbD_setWidth]
    interval_cases i <;> simp
  | [a, b], _, _ => by
    simp only [payloadOf, payloadWord, List.length, List.take, List.cons.injEq, and_true]
    refine ⟨?_, ?_⟩ <;>
    ( apply BitVec.eq_of_getLsbD_eq
      intro i hi
      simp only [BitVec.getLsbD_extractLsb', BitVec.getLsbD_or, BitVec.getLsbD_shiftLeft, BitVec.getLsbD_setWidth]
      interval_cases i <;> simp [BitVec.getLsbD_of_ge] )
  | [a, b, c], _, _ => by
    simp only [payloadOf, payloadWord, List.length, List.take, List.cons.injEq, and_true]
    refine ⟨?_, ?_, ?_⟩ <;>
    ( apply BitVec.eq_of_getLsbD_eq
      intro i hi
      simp only [BitVec.getLsbD_extractLsb', BitVec.getLsbD_or, BitVec.getLsbD_shiftLeft, BitVec.getLsbD_setWidth]
      interval_cases i <;> simp [BitVec.getLsbD_of_ge] )
  | [a, b, c, d], _, _ => by
    simp only [payloadOf, payloadWord, List.length, List.take, List.cons.injEq, and_true]
    refine ⟨?_, ?_, ?_, ?_⟩ <;>
    ( apply BitVec.eq_of_getLsbD_eq
      intro i hi
      simp only [BitVec.getLsbD_extractLsb', BitVec.getLsbD_or, BitVec.getLsbD_shiftLeft, BitVec.getLsbD_setWidth]
      interval_cases i <;> simp [BitVec.getLsbD_of_ge] )

/-- A word whose bytes from `n` on are zero is the payload of its first `n` bytes (R58). -/
theorem payloadWord_payloadOf (n : Nat) (w : BitVec 32) (hn : n ≤ 4) (h : w >>> (8 * n) = 0#32) :
    payloadWord (payloadOf n w) = w := by
  apply BitVec.eq_of_getLsbD_eq
  intro i hi
  have hb : ∀ j, 8 * n ≤ j → w.getLsbD j = false := by
    intro j hj
    have := congrArg (fun x : BitVec 32 => x.getLsbD (j - 8 * n)) h
    simp only [BitVec.getLsbD_ushiftRight] at this
    simpa [show 8 * n + (j - 8 * n) = j by omega] using this
  have hb' := hb i
  interval_cases n <;>
    simp only [payloadOf, payloadWord, List.take, BitVec.getLsbD_extractLsb', BitVec.getLsbD_or,
      BitVec.getLsbD_shiftLeft, BitVec.getLsbD_setWidth] <;>
    interval_cases i <;> simp at hb' ⊢ <;> simp [hb']

/-- A payload sets no byte beyond its length (R58). -/
theorem payloadWord_shift : ∀ payload : List Byte, payload.length ≤ 4 →
    payloadWord payload >>> (8 * payload.length) = 0#32
  | [], _ => by simp [payloadWord]
  | _ :: _ :: _ :: _ :: _ :: _, h => absurd h (by simp)
  | [a], _ => by
    simp only [payloadWord, List.length]
    apply BitVec.eq_of_getLsbD_eq
    intro i hi
    simp [BitVec.getLsbD_setWidth, BitVec.getLsbD_of_ge]
  | [a, b], _ => by
    simp only [payloadWord, List.length]
    apply BitVec.eq_of_getLsbD_eq
    intro i hi
    simp only [BitVec.getLsbD_ushiftRight, BitVec.getLsbD_or, BitVec.getLsbD_shiftLeft, BitVec.getLsbD_setWidth]
    interval_cases i <;> simp [BitVec.getLsbD_of_ge]
  | [a, b, c], _ => by
    simp only [payloadWord, List.length]
    apply BitVec.eq_of_getLsbD_eq
    intro i hi
    simp only [BitVec.getLsbD_ushiftRight, BitVec.getLsbD_or, BitVec.getLsbD_shiftLeft, BitVec.getLsbD_setWidth]
    interval_cases i <;> simp [BitVec.getLsbD_of_ge]
  | [a, b, c, d], _ => by
    simp only [payloadWord, List.length]
    apply BitVec.eq_of_getLsbD_eq
    intro i hi
    simp only [BitVec.getLsbD_ushiftRight, BitVec.getLsbD_or, BitVec.getLsbD_shiftLeft, BitVec.getLsbD_setWidth]
    interval_cases i <;> simp [BitVec.getLsbD_of_ge]

/-- A byte in `W[7:0]`, read back. -/
theorem extract_setWidth_byte (v : Byte) : (v.setWidth 32).extractLsb' 0 8 = v := by
  apply BitVec.eq_of_toNat_eq
  simp
  omega

/-- A byte in `W[7:0]` leaves `W[31:8]` zero. -/
theorem setWidth_byte_and_high (v : Byte) : v.setWidth 32 &&& 0xFFFFFF00#32 = 0#32 := by
  revert v
  decide

/-- A word with `W[31:8]` zero is its low byte. -/
theorem setWidth_extract_byte (w : BitVec 32) (h : w &&& 0xFFFFFF00#32 = 0#32) : (w.extractLsb' 0 8).setWidth 32 = w := by
  apply BitVec.eq_of_getLsbD_eq
  intro i hi
  have := congrArg (fun x : BitVec 32 => x.getLsbD i) h
  simp only [BitVec.getLsbD_and] at this
  simp only [BitVec.getLsbD_extractLsb', BitVec.getLsbD_setWidth]
  interval_cases i <;> simp_all

end Sys2Proof
end

