-- ==== Sys2Proof/Laws/State.lean ====
section
/-! SUPPORT. One lemma per field of `State` and named update, true by `rfl`. -/

namespace Sys2Proof.Machine

open Sys2Proof

@[simp] theorem setErr_err (s : State) (v : ErrCode) : (s.setErr v).err = v := rfl
@[simp] theorem setErr_chk (s : State) (v : ErrCode) : (s.setErr v).chk = s.chk := rfl
@[simp] theorem setErr_scr (s : State) (v : ErrCode) : (s.setErr v).scr = s.scr := rfl
@[simp] theorem setErr_seq (s : State) (v : ErrCode) : (s.setErr v).seq = s.seq := rfl
@[simp] theorem setErr_cmdr (s : State) (v : ErrCode) : (s.setErr v).cmdr = s.cmdr := rfl
@[simp] theorem setErr_buf (s : State) (v : ErrCode) : (s.setErr v).buf = s.buf := rfl
@[simp] theorem setErr_cmdIn (s : State) (v : ErrCode) : (s.setErr v).cmdIn = s.cmdIn := rfl
@[simp] theorem setErr_wrAns (s : State) (v : ErrCode) : (s.setErr v).wrAns = s.wrAns := rfl
@[simp] theorem setErr_rdAns (s : State) (v : ErrCode) : (s.setErr v).rdAns = s.rdAns := rfl
@[simp] theorem setErr_trace (s : State) (v : ErrCode) : (s.setErr v).trace = s.trace := rfl

@[simp] theorem setChk_err (s : State) (v : Bool) : (s.setChk v).err = s.err := rfl
@[simp] theorem setChk_chk (s : State) (v : Bool) : (s.setChk v).chk = v := rfl
@[simp] theorem setChk_scr (s : State) (v : Bool) : (s.setChk v).scr = s.scr := rfl
@[simp] theorem setChk_seq (s : State) (v : Bool) : (s.setChk v).seq = s.seq := rfl
@[simp] theorem setChk_cmdr (s : State) (v : Bool) : (s.setChk v).cmdr = s.cmdr := rfl
@[simp] theorem setChk_buf (s : State) (v : Bool) : (s.setChk v).buf = s.buf := rfl
@[simp] theorem setChk_cmdIn (s : State) (v : Bool) : (s.setChk v).cmdIn = s.cmdIn := rfl
@[simp] theorem setChk_wrAns (s : State) (v : Bool) : (s.setChk v).wrAns = s.wrAns := rfl
@[simp] theorem setChk_rdAns (s : State) (v : Bool) : (s.setChk v).rdAns = s.rdAns := rfl
@[simp] theorem setChk_trace (s : State) (v : Bool) : (s.setChk v).trace = s.trace := rfl

@[simp] theorem setScr_err (s : State) (v : Vector Byte Config.SCRN) : (s.setScr v).err = s.err := rfl
@[simp] theorem setScr_chk (s : State) (v : Vector Byte Config.SCRN) : (s.setScr v).chk = s.chk := rfl
@[simp] theorem setScr_scr (s : State) (v : Vector Byte Config.SCRN) : (s.setScr v).scr = v := rfl
@[simp] theorem setScr_seq (s : State) (v : Vector Byte Config.SCRN) : (s.setScr v).seq = s.seq := rfl
@[simp] theorem setScr_cmdr (s : State) (v : Vector Byte Config.SCRN) : (s.setScr v).cmdr = s.cmdr := rfl
@[simp] theorem setScr_buf (s : State) (v : Vector Byte Config.SCRN) : (s.setScr v).buf = s.buf := rfl
@[simp] theorem setScr_cmdIn (s : State) (v : Vector Byte Config.SCRN) : (s.setScr v).cmdIn = s.cmdIn := rfl
@[simp] theorem setScr_wrAns (s : State) (v : Vector Byte Config.SCRN) : (s.setScr v).wrAns = s.wrAns := rfl
@[simp] theorem setScr_rdAns (s : State) (v : Vector Byte Config.SCRN) : (s.setScr v).rdAns = s.rdAns := rfl
@[simp] theorem setScr_trace (s : State) (v : Vector Byte Config.SCRN) : (s.setScr v).trace = s.trace := rfl

@[simp] theorem setSeq_err (s : State) (v : Seq) : (s.setSeq v).err = s.err := rfl
@[simp] theorem setSeq_chk (s : State) (v : Seq) : (s.setSeq v).chk = s.chk := rfl
@[simp] theorem setSeq_scr (s : State) (v : Seq) : (s.setSeq v).scr = s.scr := rfl
@[simp] theorem setSeq_seq (s : State) (v : Seq) : (s.setSeq v).seq = v := rfl
@[simp] theorem setSeq_cmdr (s : State) (v : Seq) : (s.setSeq v).cmdr = s.cmdr := rfl
@[simp] theorem setSeq_buf (s : State) (v : Seq) : (s.setSeq v).buf = s.buf := rfl
@[simp] theorem setSeq_cmdIn (s : State) (v : Seq) : (s.setSeq v).cmdIn = s.cmdIn := rfl
@[simp] theorem setSeq_wrAns (s : State) (v : Seq) : (s.setSeq v).wrAns = s.wrAns := rfl
@[simp] theorem setSeq_rdAns (s : State) (v : Seq) : (s.setSeq v).rdAns = s.rdAns := rfl
@[simp] theorem setSeq_trace (s : State) (v : Seq) : (s.setSeq v).trace = s.trace := rfl

@[simp] theorem setCmdr_err (s : State) (v : Option Command) : (s.setCmdr v).err = s.err := rfl
@[simp] theorem setCmdr_chk (s : State) (v : Option Command) : (s.setCmdr v).chk = s.chk := rfl
@[simp] theorem setCmdr_scr (s : State) (v : Option Command) : (s.setCmdr v).scr = s.scr := rfl
@[simp] theorem setCmdr_seq (s : State) (v : Option Command) : (s.setCmdr v).seq = s.seq := rfl
@[simp] theorem setCmdr_cmdr (s : State) (v : Option Command) : (s.setCmdr v).cmdr = v := rfl
@[simp] theorem setCmdr_buf (s : State) (v : Option Command) : (s.setCmdr v).buf = s.buf := rfl
@[simp] theorem setCmdr_cmdIn (s : State) (v : Option Command) : (s.setCmdr v).cmdIn = s.cmdIn := rfl
@[simp] theorem setCmdr_wrAns (s : State) (v : Option Command) : (s.setCmdr v).wrAns = s.wrAns := rfl
@[simp] theorem setCmdr_rdAns (s : State) (v : Option Command) : (s.setCmdr v).rdAns = s.rdAns := rfl
@[simp] theorem setCmdr_trace (s : State) (v : Option Command) : (s.setCmdr v).trace = s.trace := rfl

@[simp] theorem setBuf_err (s : State) (v : List Byte) : (s.setBuf v).err = s.err := rfl
@[simp] theorem setBuf_chk (s : State) (v : List Byte) : (s.setBuf v).chk = s.chk := rfl
@[simp] theorem setBuf_scr (s : State) (v : List Byte) : (s.setBuf v).scr = s.scr := rfl
@[simp] theorem setBuf_seq (s : State) (v : List Byte) : (s.setBuf v).seq = s.seq := rfl
@[simp] theorem setBuf_cmdr (s : State) (v : List Byte) : (s.setBuf v).cmdr = s.cmdr := rfl
@[simp] theorem setBuf_buf (s : State) (v : List Byte) : (s.setBuf v).buf = v := rfl
@[simp] theorem setBuf_cmdIn (s : State) (v : List Byte) : (s.setBuf v).cmdIn = s.cmdIn := rfl
@[simp] theorem setBuf_wrAns (s : State) (v : List Byte) : (s.setBuf v).wrAns = s.wrAns := rfl
@[simp] theorem setBuf_rdAns (s : State) (v : List Byte) : (s.setBuf v).rdAns = s.rdAns := rfl
@[simp] theorem setBuf_trace (s : State) (v : List Byte) : (s.setBuf v).trace = s.trace := rfl

@[simp] theorem setCmdIn_err (s : State) (v : List Command) : (s.setCmdIn v).err = s.err := rfl
@[simp] theorem setCmdIn_chk (s : State) (v : List Command) : (s.setCmdIn v).chk = s.chk := rfl
@[simp] theorem setCmdIn_scr (s : State) (v : List Command) : (s.setCmdIn v).scr = s.scr := rfl
@[simp] theorem setCmdIn_seq (s : State) (v : List Command) : (s.setCmdIn v).seq = s.seq := rfl
@[simp] theorem setCmdIn_cmdr (s : State) (v : List Command) : (s.setCmdIn v).cmdr = s.cmdr := rfl
@[simp] theorem setCmdIn_buf (s : State) (v : List Command) : (s.setCmdIn v).buf = s.buf := rfl
@[simp] theorem setCmdIn_cmdIn (s : State) (v : List Command) : (s.setCmdIn v).cmdIn = v := rfl
@[simp] theorem setCmdIn_wrAns (s : State) (v : List Command) : (s.setCmdIn v).wrAns = s.wrAns := rfl
@[simp] theorem setCmdIn_rdAns (s : State) (v : List Command) : (s.setCmdIn v).rdAns = s.rdAns := rfl
@[simp] theorem setCmdIn_trace (s : State) (v : List Command) : (s.setCmdIn v).trace = s.trace := rfl

@[simp] theorem setWrAns_err (s : State) (v : List ErrCode) : (s.setWrAns v).err = s.err := rfl
@[simp] theorem setWrAns_chk (s : State) (v : List ErrCode) : (s.setWrAns v).chk = s.chk := rfl
@[simp] theorem setWrAns_scr (s : State) (v : List ErrCode) : (s.setWrAns v).scr = s.scr := rfl
@[simp] theorem setWrAns_seq (s : State) (v : List ErrCode) : (s.setWrAns v).seq = s.seq := rfl
@[simp] theorem setWrAns_cmdr (s : State) (v : List ErrCode) : (s.setWrAns v).cmdr = s.cmdr := rfl
@[simp] theorem setWrAns_buf (s : State) (v : List ErrCode) : (s.setWrAns v).buf = s.buf := rfl
@[simp] theorem setWrAns_cmdIn (s : State) (v : List ErrCode) : (s.setWrAns v).cmdIn = s.cmdIn := rfl
@[simp] theorem setWrAns_wrAns (s : State) (v : List ErrCode) : (s.setWrAns v).wrAns = v := rfl
@[simp] theorem setWrAns_rdAns (s : State) (v : List ErrCode) : (s.setWrAns v).rdAns = s.rdAns := rfl
@[simp] theorem setWrAns_trace (s : State) (v : List ErrCode) : (s.setWrAns v).trace = s.trace := rfl

@[simp] theorem setRdAns_err (s : State) (v : List ReadDraw) : (s.setRdAns v).err = s.err := rfl
@[simp] theorem setRdAns_chk (s : State) (v : List ReadDraw) : (s.setRdAns v).chk = s.chk := rfl
@[simp] theorem setRdAns_scr (s : State) (v : List ReadDraw) : (s.setRdAns v).scr = s.scr := rfl
@[simp] theorem setRdAns_seq (s : State) (v : List ReadDraw) : (s.setRdAns v).seq = s.seq := rfl
@[simp] theorem setRdAns_cmdr (s : State) (v : List ReadDraw) : (s.setRdAns v).cmdr = s.cmdr := rfl
@[simp] theorem setRdAns_buf (s : State) (v : List ReadDraw) : (s.setRdAns v).buf = s.buf := rfl
@[simp] theorem setRdAns_cmdIn (s : State) (v : List ReadDraw) : (s.setRdAns v).cmdIn = s.cmdIn := rfl
@[simp] theorem setRdAns_wrAns (s : State) (v : List ReadDraw) : (s.setRdAns v).wrAns = s.wrAns := rfl
@[simp] theorem setRdAns_rdAns (s : State) (v : List ReadDraw) : (s.setRdAns v).rdAns = v := rfl
@[simp] theorem setRdAns_trace (s : State) (v : List ReadDraw) : (s.setRdAns v).trace = s.trace := rfl

@[simp] theorem emit_err (s : State) (ev : Event) : (s.emit ev).err = s.err := rfl
@[simp] theorem emit_chk (s : State) (ev : Event) : (s.emit ev).chk = s.chk := rfl
@[simp] theorem emit_scr (s : State) (ev : Event) : (s.emit ev).scr = s.scr := rfl
@[simp] theorem emit_seq (s : State) (ev : Event) : (s.emit ev).seq = s.seq := rfl
@[simp] theorem emit_cmdr (s : State) (ev : Event) : (s.emit ev).cmdr = s.cmdr := rfl
@[simp] theorem emit_buf (s : State) (ev : Event) : (s.emit ev).buf = s.buf := rfl
@[simp] theorem emit_cmdIn (s : State) (ev : Event) : (s.emit ev).cmdIn = s.cmdIn := rfl
@[simp] theorem emit_wrAns (s : State) (ev : Event) : (s.emit ev).wrAns = s.wrAns := rfl
@[simp] theorem emit_rdAns (s : State) (ev : Event) : (s.emit ev).rdAns = s.rdAns := rfl
@[simp] theorem emit_trace (s : State) (ev : Event) : (s.emit ev).trace = s.trace ++ [ev] := rfl

/-- Two states with equal fields are equal. -/
theorem State.ext_fields {s t : State} (herr : s.err = t.err) (hchk : s.chk = t.chk) (hscr : s.scr = t.scr)
    (hseq : s.seq = t.seq) (hcmdr : s.cmdr = t.cmdr) (hbuf : s.buf = t.buf) (hcmdIn : s.cmdIn = t.cmdIn)
    (hwrAns : s.wrAns = t.wrAns) (hrdAns : s.rdAns = t.rdAns) (htrace : s.trace = t.trace) : s = t := by
  cases s
  cases t
  simp_all

end Sys2Proof.Machine
end

