-- ==== Sys2Proof/Laws/Ops.lean ====
section
/-! SUPPORT. What each shared operation does, field by field, and what a micro-program run does: the lemmas that later
proofs cite instead of unfolding Machine/Ops.lean (spec/40_transport.md rules R70 to R73, R81). -/

namespace Sys2Proof.Machine

open Sys2Proof

/-! ## The operations as record updates -/

theorem accept_eq (s : State) (c : Command) (rest : List Command) :
    s.accept c rest =
      { s with cmdIn := rest, cmdr := some c, seq := .run 0, trace := s.trace ++ [.accept c] } := rfl

theorem respond_eq (s : State) (stat : BitVec 1) (res : Result) :
    s.respond stat res =
      { s with seq := .idle, cmdr := none, buf := [], trace := s.trace ++ [.respond stat res] } := rfl

theorem refuseIllegal_eq (s : State) :
    s.refuseIllegal = { s with seq := .idle, cmdr := none, buf := [], trace := s.trace ++ [.respond 1 0] } := rfl

theorem sendWrite_eq (s : State) (k : Fin 3) (addr : DevAddr) (bytes : List Byte) (rs : Bool) :
    s.sendWrite k addr bytes rs = { s with seq := .waitW k, trace := s.trace ++ [.busWriteReq addr bytes rs] } := rfl

theorem sendRead_eq (s : State) (k : Fin 3) (addr : DevAddr) (n : Nat) (rs : Bool) :
    s.sendRead k addr n rs = { s with seq := .waitR k, trace := s.trace ++ [.busReadReq addr n rs] } := rfl

theorem skipRead_eq (s : State) (k : Fin 3) (n : Nat) :
    s.skipRead k n = { s with buf := List.replicate n 0, seq := .run (nextIndex k) } := rfl

theorem takeRead_eq (s : State) (k : Fin 3) (n : Nat) (d : ReadDraw) (rest : List ReadDraw) :
    s.takeRead k n d rest =
      { s with buf := answerBytes n d, rdAns := rest, seq := .run (nextIndex k)
               trace := s.trace ++ [.busReadAns (answerBytes n d)] } := rfl

/-- The report condition, read as R71 states it. -/
theorem reportDue_iff (s : State) (e : ErrCode) : s.reportDue e = true ↔ s.chk = true ∧ s.err = 0 ∧ e ≠ 0 := by
  simp [State.reportDue, and_assoc]

/-- The events of a report, by the report condition. -/
theorem reportEvents_eq (s : State) (addr : DevAddr) (e : ErrCode) :
    s.reportEvents addr e = if s.reportDue e then [.diagEmit addr] else [] := by
  simp only [State.reportEvents, reportDue_iff]

/-- A report adds its events, and nothing else. -/
theorem report_eq (s : State) (addr : DevAddr) (e : ErrCode) :
    s.report addr e = { s with trace := s.trace ++ s.reportEvents addr e } := by
  rw [reportEvents_eq, State.report]
  cases s.reportDue e <;> simp [State.emit]

/-- The events of a report depend on `CHK` and `ERR` alone. -/
theorem reportEvents_congr {s t : State} (hchk : s.chk = t.chk) (herr : s.err = t.err) (addr : DevAddr) (e : ErrCode) :
    s.reportEvents addr e = t.reportEvents addr e := by
  rw [State.reportEvents, State.reportEvents, hchk, herr]

theorem takeWrite_eq (s : State) (k : Fin 3) (addr : DevAddr) (e : ErrCode) (rest : List ErrCode) :
    s.takeWrite k addr e rest =
      { s with err := e, wrAns := rest, seq := .run (nextIndex k)
               trace := s.trace ++ .busWriteAns e :: s.reportEvents addr e } := by
  rw [State.takeWrite, report_eq, reportEvents_congr (s := s.emit (.busWriteAns e)) (t := s) rfl rfl]
  simp [State.emit, State.setErr, State.setWrAns, State.setSeq]

/-- The Blocked condition, read as R17 states it. -/
theorem blocked_iff (s : State) : s.blocked = true ↔ s.chk = true ∧ s.err ≠ 0 := by
  simp [State.blocked]

@[simp] theorem nextIndex_zero : nextIndex 0 = 1 := rfl
@[simp] theorem nextIndex_one : nextIndex 1 = 2 := rfl

@[simp] theorem begun_of_run (s : State) (k : Fin 3) (h : s.seq = .run k) : s.begun = s := by
  simp [State.begun, h]

@[simp] theorem begun_of_idle (s : State) (h : s.seq = .idle) : s.begun = s.setSeq (.run 0) := by
  simp [State.begun, h]

/-- An answer has as many bytes as were asked. -/
theorem answerBytes_length {n : Nat} (h : n ≤ Config.MAXRD) (d : ReadDraw) : (answerBytes n d).length = n := by
  simpa [answerBytes] using h

/-! ## One micro-step -/

/-- All a micro-step can do: if it answers a next state, one of six things has happened. -/
theorem microStep_next_cases {ops : List MicroOp} {resp : State → State} {s t : State}
    (h : microStep ops resp s = .next t) :
    (∃ k addr bytes rs, s.seq = .run k ∧ ops[k.val]? = some (.txw addr bytes rs) ∧ t = s.sendWrite k addr bytes rs) ∨
    (∃ k addr n rs, s.seq = .run k ∧ ops[k.val]? = some (.txr addr n rs) ∧ s.blocked = true ∧ t = s.skipRead k n) ∨
    (∃ k addr n rs, s.seq = .run k ∧ ops[k.val]? = some (.txr addr n rs) ∧ s.blocked = false ∧
      t = s.sendRead k addr n rs) ∨
    (∃ k, s.seq = .run k ∧ k.val = ops.length ∧ t = resp s) ∨
    (∃ k addr bytes rs e rest, s.seq = .waitW k ∧ ops[k.val]? = some (.txw addr bytes rs) ∧ s.wrAns = e :: rest ∧
      t = s.takeWrite k addr e rest) ∨
    (∃ k addr n rs d rest, s.seq = .waitR k ∧ ops[k.val]? = some (.txr addr n rs) ∧ s.rdAns = d :: rest ∧
      t = s.takeRead k n d rest) := by
  unfold microStep at h
  split at h
  · cases h
  · next k hk =>
    split at h
    · next addr bytes rs ho => exact .inl ⟨k, addr, bytes, rs, hk, ho, by cases h; rfl⟩
    · next addr n rs ho =>
      cases hb : s.blocked
      · exact .inr (.inr (.inl ⟨k, addr, n, rs, hk, ho, rfl, by simpa [hb] using h.symm⟩))
      · exact .inr (.inl ⟨k, addr, n, rs, hk, ho, rfl, by simpa [hb] using h.symm⟩)
    · split at h
      · next he => exact .inr (.inr (.inr (.inl ⟨k, hk, he, by cases h; rfl⟩)))
      · cases h
  · next k hk =>
    split at h
    · next addr bytes rs e rest ho ha =>
      exact .inr (.inr (.inr (.inr (.inl ⟨k, addr, bytes, rs, e, rest, hk, ho, ha, by cases h; rfl⟩))))
    · cases h
    · cases h
  · next k hk =>
    split at h
    · next addr n rs d rest ho ha =>
      exact .inr (.inr (.inr (.inr (.inr ⟨k, addr, n, rs, d, rest, hk, ho, ha, by cases h; rfl⟩))))
    · cases h
    · cases h

/-! ## A run of micro-steps -/

/-- What every micro-step of a program keeps, the settling keeps. -/
theorem settle_induct {ops : List MicroOp} {resp : State → State} (P : State → Prop)
    (hmicro : ∀ a b, P a → microStep ops resp a = .next b → P b) :
    ∀ (fuel : Nat) (s t : State), P s → settle ops resp fuel s = .next t → P t := by
  intro fuel
  induction fuel with
  | zero =>
    intro s t hs h
    cases h
    exact hs
  | succ fuel ih =>
    intro s t hs h
    unfold settle at h
    split at h
    · cases h
      exact hs
    · split at h
      · next s' hm => exact ih s' t (hmicro s s' hs hm) h
      · cases h
        exact hs
      · next h1 _ => exact absurd h (h1 t)

/-- What acceptance starts from and every micro-step keeps holds of the state a program run answers. -/
theorem runProgram_induct {ops : List MicroOp} {resp : State → State} (P : State → Prop)
    (hmicro : ∀ a b, P a → microStep ops resp a = .next b → P b) {s t : State} (hs : P s.begun)
    (h : runProgram ops resp s = .next t) : P t := by
  unfold runProgram at h
  split at h
  · next s' hm => exact settle_induct P hmicro 4 s' t (hmicro _ _ hs hm) h
  · next h1 => exact absurd h (h1 t)

/-- A program with no bus micro-op responds at once. -/
theorem runProgram_resp (resp : State → State) (s : State) (hs : s.seq = .run 0) (hr : ∀ a, (resp a).seq = .idle) :
    runProgram [] resp s = .next (resp s) := by
  simp [runProgram, microStep, settle, hs, hr]

/-- A program of one answered write. -/
theorem runProgram_write (resp : State → State) (s : State) (addr : DevAddr) (bytes : List Byte) (rs : Bool)
    (e : ErrCode) (rest : List ErrCode) (hs : s.seq = .run 0) (ha : s.wrAns = e :: rest)
    (hr : ∀ a, (resp a).seq = .idle) :
    runProgram [.txw addr bytes rs] resp s =
      .next (resp ((s.sendWrite 0 addr bytes rs).takeWrite 0 addr e rest)) := by
  simp [runProgram, microStep, settle, hs, hr, ha, takeWrite_eq, sendWrite_eq]

/-- A program whose first micro-op is an unanswered write waits for the answer. -/
theorem runProgram_write_waits (resp : State → State) (s : State) (addr : DevAddr) (bytes : List Byte) (rs : Bool)
    (ops : List MicroOp) (hs : s.seq = .run 0) (ha : s.wrAns = []) :
    runProgram (.txw addr bytes rs :: ops) resp s = .next (s.sendWrite 0 addr bytes rs) := by
  simp [runProgram, microStep, settle, hs, ha, sendWrite_eq]

/-- A program of one read, Blocked. -/
theorem runProgram_read_blocked (resp : State → State) (s : State) (addr : DevAddr) (n : Nat) (rs : Bool)
    (hs : s.seq = .run 0) (hb : s.blocked = true) (hr : ∀ a, (resp a).seq = .idle) :
    runProgram [.txr addr n rs] resp s = .next (resp (s.skipRead 0 n)) := by
  simp [runProgram, microStep, settle, hs, hr, hb, skipRead_eq]

/-- A program of one answered read. -/
theorem runProgram_read (resp : State → State) (s : State) (addr : DevAddr) (n : Nat) (rs : Bool)
    (d : ReadDraw) (rest : List ReadDraw) (hs : s.seq = .run 0) (hb : s.blocked = false) (ha : s.rdAns = d :: rest)
    (hr : ∀ a, (resp a).seq = .idle) :
    runProgram [.txr addr n rs] resp s = .next (resp ((s.sendRead 0 addr n rs).takeRead 0 n d rest)) := by
  simp [runProgram, microStep, settle, hs, hr, hb, ha, sendRead_eq, takeRead_eq]

/-- A program of one unanswered read waits for the answer. -/
theorem runProgram_read_waits (resp : State → State) (s : State) (addr : DevAddr) (n : Nat) (rs : Bool)
    (hs : s.seq = .run 0) (hb : s.blocked = false) (ha : s.rdAns = []) :
    runProgram [.txr addr n rs] resp s = .next (s.sendRead 0 addr n rs) := by
  simp [runProgram, microStep, settle, hs, hb, ha, sendRead_eq]

/-- `REGREAD` with an answered write that leaves the block Blocked: the read is skipped. -/
theorem runProgram_regRead_blocked (resp : State → State) (s : State) (addr : DevAddr) (reg : Byte) (n : Nat)
    (e : ErrCode) (rest : List ErrCode) (hs : s.seq = .run 0) (ha : s.wrAns = e :: rest)
    (hb : s.chk = true ∧ e ≠ 0) (hr : ∀ a, (resp a).seq = .idle) :
    runProgram (regReadOps addr reg n) resp s =
      .next (resp (((s.sendWrite 0 addr [reg] true).takeWrite 0 addr e rest).skipRead 1 n)) := by
  obtain ⟨hc, he⟩ := hb
  simp at he
  simp [runProgram, microStep, settle, hs, hr, ha, hc, he, State.blocked, regReadOps, takeWrite_eq, sendWrite_eq,
    skipRead_eq]

/-- `REGREAD` with both requests answered and the read not Blocked. -/
theorem runProgram_regRead (resp : State → State) (s : State) (addr : DevAddr) (reg : Byte) (n : Nat)
    (e : ErrCode) (rest : List ErrCode) (d : ReadDraw) (drest : List ReadDraw) (hs : s.seq = .run 0)
    (ha : s.wrAns = e :: rest) (hb : ¬ (s.chk = true ∧ e ≠ 0)) (hd : s.rdAns = d :: drest) :
    runProgram (regReadOps addr reg n) resp s =
      .next (resp ((((s.sendWrite 0 addr [reg] true).takeWrite 0 addr e rest).sendRead 1 addr n false).takeRead
        1 n d drest)) := by
  have hfree : s.chk = false ∨ e = 0 := by
    cases hc : s.chk <;> simp_all
  rcases hfree with h | h <;>
  simp [runProgram, microStep, settle, hs, ha, hd, h, State.blocked, regReadOps, takeWrite_eq, sendWrite_eq,
    sendRead_eq, takeRead_eq]

/-- `REGREAD` with the write answered and the read not: it waits for the bytes. -/
theorem runProgram_regRead_waits (resp : State → State) (s : State) (addr : DevAddr) (reg : Byte) (n : Nat)
    (e : ErrCode) (rest : List ErrCode) (hs : s.seq = .run 0)
    (ha : s.wrAns = e :: rest) (hb : ¬ (s.chk = true ∧ e ≠ 0)) (hd : s.rdAns = []) :
    runProgram (regReadOps addr reg n) resp s =
      .next (((s.sendWrite 0 addr [reg] true).takeWrite 0 addr e rest).sendRead 1 addr n false) := by
  have hfree : s.chk = false ∨ e = 0 := by
    cases hc : s.chk <;> simp_all
  rcases hfree with h | h <;>
  simp [runProgram, microStep, settle, hs, ha, hd, h, State.blocked, regReadOps, takeWrite_eq, sendWrite_eq,
    sendRead_eq]

/-- A well-formed command runs its micro-program. -/
theorem runCommand_of_wf {i : Instr} (h : i.wf = true) (resp : State → State) (s : State) :
    runCommand i resp s = runProgram (microProgram Config.params i) resp s := by
  simp [runCommand, h]

/-- An ill-formed command is refused with no other effect. -/
theorem runCommand_of_not_wf {i : Instr} (h : i.wf = false) (resp : State → State) (s : State) :
    runCommand i resp s = .next s.refuseIllegal := by
  simp [runCommand, h]

end Sys2Proof.Machine
end

