-- ==== Sys2Proof/Laws/Exec.lean ====
section
/-! SUPPORT. The meaning of each command as the run of its micro-program with its final step (spec/40_transport.md rule R81),
true by `rfl`: what a proof about one command starts from. -/

namespace Sys2Proof.Machine

open Sys2Proof

theorem exec_init (check : Bool) (s : State) :
    exec (.init check) s = runCommand (.init check) (fun s => ((s.setErr 0).setChk check).respond 0 0) s := rfl

theorem exec_gerr (s : State) :
    exec .gerr s = runCommand .gerr (fun s => s.respond 0 (s.err.setWidth Config.RESW)) s := rfl

theorem exec_wrs (addr : DevAddr) (payload : List Byte) (rs : Bool) (s : State) :
    exec (.wrs addr payload rs) s = runCommand (.wrs addr payload rs) (fun s => s.respond 0 0) s := rfl

theorem exec_rds (addr : DevAddr) (len : Nat) (rs : Bool) (s : State) :
    exec (.rds addr len rs) s = runCommand (.rds addr len rs) (fun s => s.respond 0 (packBytes s.buf)) s := rfl

theorem exec_rrd (addr : DevAddr) (reg : Byte) (len : Nat) (s : State) :
    exec (.rrd addr reg len) s = runCommand (.rrd addr reg len) (fun s => s.respond 0 (packBytes s.buf)) s := rfl

theorem exec_rwr (addr : DevAddr) (reg value : Byte) (s : State) :
    exec (.rwr addr reg value) s = runCommand (.rwr addr reg value) (fun s => s.respond 0 0) s := rfl

theorem exec_rdh (addr : DevAddr) (mode : Mode) (lo hi : BitVec 16) (s : State) :
    exec (.rdh addr mode lo hi) s = runCommand (.rdh addr mode lo hi)
      (fun s => s.respond 0 (axisField (axis mode (s.bufByte 0) (s.bufByte 1) lo hi))) s := rfl

theorem exec_rdv (addr : DevAddr) (mode : Mode) (lo hi : BitVec 16) (s : State) :
    exec (.rdv addr mode lo hi) s = runCommand (.rdv addr mode lo hi)
      (fun s => s.respond 0 (axisField (axis mode (s.bufByte 0) (s.bufByte 1) lo hi))) s := rfl

theorem exec_rda (addr : DevAddr) (mode : Mode) (lo hi : BitVec 16) (s : State) :
    exec (.rda addr mode lo hi) s = runCommand (.rda addr mode lo hi)
      (fun s => s.respond 0 (sampleField mode lo hi (s.bufByte 0) (s.bufByte 1) (s.bufByte 2) (s.bufByte 3)
        (s.bufByte 4) (s.bufByte 5))) s := rfl

theorem exec_btp (addr : DevAddr) (s : State) :
    exec (.btp addr) s = runCommand (.btp addr) (fun s => s.respond 0 (boolField (pressed (s.bufByte 0)))) s := rfl

theorem exec_btw (addr : DevAddr) (s : State) :
    exec (.btw addr) s = runCommand (.btw addr) (fun s => s.respond 0 (boolField (wasPressed (s.bufByte 0)))) s := rfl

theorem exec_btc (addr : DevAddr) (s : State) :
    exec (.btc addr) s = runCommand (.btc addr) (fun s => s.respond 0 0) s := rfl

theorem exec_rdp (addr : DevAddr) (ovr : Option Byte) (s : State) :
    exec (.rdp addr ovr) s = runCommand (.rdp addr ovr)
      (fun s => s.respond 0
        ((packFrame (s.bufByte 0) (s.bufByte 2) (s.bufByte 4) (s.bufByte 5) ovr).setWidth Config.RESW)) s := rfl

theorem exec_scs (off : Fin 4) (size : ScsSize) (be : Bool) (value : BitVec 32) (s : State) :
    exec (.scs off size be value) s = runCommand (.scs off size be value)
      (fun s => (s.setScr (storeScr off.val (scsBytes size be value) s.scr)).respond 0 0) s := rfl

theorem exec_scg (s : State) :
    exec .scg s = runCommand .scg (fun s => s.respond 0 ((scrWord s.scr).setWidth Config.RESW)) s := rfl

/-- Every command is the run of its micro-program with some final step that ends at `IDLE` with both temporaries empty, keeps every
port but the trace, and writes `ERR` and `CHK` only in `INIT` and `SCR` only in `SCS` (R27, R57, R70). -/
theorem exec_eq_runCommand (i : Instr) :
    ∃ resp : State → State, (∀ s, exec i s = runCommand i resp s) ∧
      ∀ s, (resp s).seq = .idle ∧ (resp s).cmdr = none ∧ (resp s).buf = [] ∧ (resp s).cmdIn = s.cmdIn ∧
        (resp s).wrAns = s.wrAns ∧ (resp s).rdAns = s.rdAns ∧
        (∃ res, (resp s).trace = s.trace ++ [.respond 0 res]) ∧
        (((∀ check, i ≠ .init check) ∧ (resp s).err = s.err ∧ (resp s).chk = s.chk) ∨
          ∃ check, i = .init check ∧ (resp s).err = 0 ∧ (resp s).chk = check) ∧
        ((∀ off size be value, i ≠ .scs off size be value) → (resp s).scr = s.scr) := by
  cases i
  case scs off size be value =>
    refine ⟨_, fun s => exec_scs off size be value s, fun s => ?_⟩
    refine ⟨rfl, rfl, rfl, rfl, rfl, rfl, ⟨0, rfl⟩, .inl ⟨by simp, rfl, rfl⟩, fun h => absurd rfl (h off size be value)⟩
  all_goals
    refine ⟨_, fun s => rfl, fun s => ?_⟩
    simp [respond_eq, State.setErr, State.setChk]

end Sys2Proof.Machine
end

