-- ==== Sys2Proof/Laws/PerInstr.lean ====
section
/-! SUPPORT. A statement about every constructor of `Instr`, one lemma each, for the host's case split: the word a command
encodes to carries the command's opcode in `CMD[7:0]` (spec/30_encoding.md rules R50, R51). -/

namespace Sys2Proof.Laws.EncodesOpcode

open Sys2Proof

/-- `CMD[7:0]` of the encoded command is the command's opcode (R50, R51). -/
def Statement (i : Instr) : Prop := (encode i).extractLsb' 0 8 = i.opcode

/-- The opcode field of an encoded command is the one it is written with. -/
theorem opc_of_encode (i : Instr) : (encode i).extractLsb' 0 8 = i.fields.opc := by
  have h : (Fields.ofWord (encode i)).opc = i.fields.opc := by rw [encode, Fields.ofWord_toWord]
  exact h

theorem init (check : Bool) : Statement (.init check) := opc_of_encode _
theorem gerr : Statement .gerr := opc_of_encode _
theorem wrs (addr : DevAddr) (payload : List Byte) (rs : Bool) : Statement (.wrs addr payload rs) := opc_of_encode _
theorem rds (addr : DevAddr) (len : Nat) (rs : Bool) : Statement (.rds addr len rs) := opc_of_encode _
theorem rrd (addr : DevAddr) (reg : Byte) (len : Nat) : Statement (.rrd addr reg len) := opc_of_encode _
theorem rwr (addr : DevAddr) (reg value : Byte) : Statement (.rwr addr reg value) := opc_of_encode _
theorem rdh (addr : DevAddr) (mode : Mode) (lo hi : BitVec 16) : Statement (.rdh addr mode lo hi) := opc_of_encode _
theorem rdv (addr : DevAddr) (mode : Mode) (lo hi : BitVec 16) : Statement (.rdv addr mode lo hi) := opc_of_encode _
theorem rda (addr : DevAddr) (mode : Mode) (lo hi : BitVec 16) : Statement (.rda addr mode lo hi) := opc_of_encode _
theorem btp (addr : DevAddr) : Statement (.btp addr) := opc_of_encode _
theorem btw (addr : DevAddr) : Statement (.btw addr) := opc_of_encode _
theorem btc (addr : DevAddr) : Statement (.btc addr) := opc_of_encode _

theorem rdp (addr : DevAddr) (ovr : Option Byte) : Statement (.rdp addr ovr) := by
  cases ovr <;> exact opc_of_encode _

theorem scs (off : Fin 4) (size : ScsSize) (be : Bool) (value : BitVec 32) : Statement (.scs off size be value) :=
  opc_of_encode _

theorem scg : Statement .scg := opc_of_encode _

end Sys2Proof.Laws.EncodesOpcode
end

