-- ==== Sys2Proof/Laws/Step.lean ====
section
/-! SUPPORT. Whole runs: how a run of a micro-program ends, what a command keeps of the state it starts from, and the one
inversion lemma of a step (spec/40_transport.md rules R70, R71, R81; spec/60_exceptions.md rule R171). -/

namespace Sys2Proof.Machine

open Sys2Proof

theorem nextIndex_val (k : Fin 3) (h : k.val < 2) : (nextIndex k).val = k.val + 1 := by
  unfold nextIndex
  rw [dif_pos (by omega)]

/-- What a command keeps of the state it starts from when it starts at `IDLE`: all but `SEQ`. -/
theorem begun_fields (s : State) :
    s.begun.chk = s.chk ∧ s.begun.err = s.err ∧ s.begun.scr = s.scr ∧ s.begun.cmdIn = s.cmdIn ∧ s.begun.wrAns = s.wrAns ∧
      s.begun.rdAns = s.rdAns ∧ s.begun.trace = s.trace ∧ s.begun.cmdr = s.cmdr ∧ s.begun.buf = s.buf := by
  unfold State.begun
  split <;> simp

/-- The four shapes of a micro-program (R81); a well-formed command reads at most eight bytes. -/
theorem microProgram_shape (i : Instr) :
    microProgram Config.params i = [] ∨
    (∃ addr bytes rs, microProgram Config.params i = [.txw addr bytes rs]) ∨
    (∃ addr n rs, microProgram Config.params i = [.txr addr n rs] ∧ (i.wf = true → n ≤ Config.MAXRD)) ∨
    (∃ addr reg n, microProgram Config.params i = regReadOps addr reg n ∧ (i.wf = true → n ≤ Config.MAXRD)) := by
  cases i with
  | rds addr len rs => exact .inr (.inr (.inl ⟨addr, len, rs, rfl, by simp [Instr.wf]⟩))
  | rrd addr reg len => exact .inr (.inr (.inr ⟨addr, reg, len, rfl, by simp [Instr.wf]⟩))
  | _ => simp [microProgram, regReadOps, regWriteOps, Config.MAXRD, Config.BURSTN]

theorem microProgram_length (i : Instr) : (microProgram Config.params i).length ≤ 2 := by
  cases i <;> simp [microProgram, regReadOps, regWriteOps]

/-- A write stands only first in a micro-program. -/
theorem txw_index {i : Instr} {k : Nat} {addr : DevAddr} {bytes : List Byte} {rs : Bool}
    (h : (microProgram Config.params i)[k]? = some (.txw addr bytes rs)) : k = 0 := by
  rcases microProgram_shape i with hs | ⟨_, _, _, hs⟩ | ⟨_, _, _, hs, _⟩ | ⟨_, _, _, hs, _⟩ <;> rw [hs] at h <;>
    rcases k with _ | _ | k <;> simp [regReadOps] at h ⊢

/-- A read stands only last in a micro-program. -/
theorem txr_index {i : Instr} {k : Nat} {addr : DevAddr} {n : Nat} {rs : Bool}
    (h : (microProgram Config.params i)[k]? = some (.txr addr n rs)) : k + 1 = (microProgram Config.params i).length := by
  rcases microProgram_shape i with hs | ⟨_, _, _, hs⟩ | ⟨_, _, _, hs, _⟩ | ⟨_, _, _, hs, _⟩ <;> rw [hs] at h ⊢ <;>
    rcases k with _ | _ | k <;> simp [regReadOps] at h ⊢

/-! ## A run ends -/

/-- How many micro-steps a program of at most two micro-ops can still take. -/
def seqRank : Seq → Nat
  | .idle => 0
  | .run k => 2 * (2 - k.val) + 1
  | .waitW k => 2 * (2 - k.val)
  | .waitR k => 2 * (2 - k.val)

theorem seqRank_le (q : Seq) : seqRank q ≤ 5 := by
  cases q <;> simp [seqRank] <;> omega

theorem index_lt_two {ops : List MicroOp} (hlen : ops.length ≤ 2) {k : Nat} {op : MicroOp} (h : ops[k]? = some op) : k < 2 := by
  have := (List.getElem?_eq_some_iff.1 h).1
  omega

/-- Every micro-step lowers the rank, and a wait it leaves is at a micro-op of the program. -/
theorem microStep_rank {ops : List MicroOp} {resp : State → State} {s t : State} (hlen : ops.length ≤ 2)
    (hr : ∀ a, (resp a).seq = .idle) (h : microStep ops resp s = .next t) :
    seqRank t.seq < seqRank s.seq ∧ ∀ k, t.seq = .waitW k ∨ t.seq = .waitR k → k.val < 2 := by
  rcases microStep_next_cases h with ⟨k, addr, bytes, rs, hs, ho, rfl⟩ | ⟨k, addr, n, rs, hs, ho, hb, rfl⟩ |
    ⟨k, addr, n, rs, hs, ho, hb, rfl⟩ | ⟨k, hs, hk, rfl⟩ | ⟨k, addr, bytes, rs, e, rest, hs, ho, ha, rfl⟩ |
    ⟨k, addr, n, rs, d, rest, hs, ho, ha, rfl⟩
  · have := index_lt_two hlen ho
    simp [sendWrite_eq, hs, seqRank]
    omega
  · have := index_lt_two hlen ho
    simp [skipRead_eq, hs, seqRank, nextIndex_val k this]
    omega
  · have := index_lt_two hlen ho
    simp [sendRead_eq, hs, seqRank]
    omega
  · simp [hr, hs, seqRank]
  · have := index_lt_two hlen ho
    simp [takeWrite_eq, hs, seqRank, nextIndex_val k this]
    omega
  · have := index_lt_two hlen ho
    simp [takeRead_eq, hs, seqRank, nextIndex_val k this]
    omega

/-- Settling with enough fuel ends at `IDLE` or at a request that has no answer. -/
theorem settle_end {ops : List MicroOp} {resp : State → State} (hlen : ops.length ≤ 2) (hr : ∀ a, (resp a).seq = .idle) :
    ∀ (fuel : Nat) (s t : State), seqRank s.seq ≤ fuel → (∀ k, s.seq = .waitW k ∨ s.seq = .waitR k → k.val < 2) →
      settle ops resp fuel s = .next t → t.seq = .idle ∨ microStep ops resp t = .fault .busSilent := by
  intro fuel
  induction fuel with
  | zero =>
    intro s t h hw hs
    cases hs
    rcases hq : s.seq with _ | k | k | k
    · exact .inl rfl
    · simp [hq, seqRank] at h
    · have := hw k (.inl hq)
      simp [hq, seqRank] at h
      omega
    · have := hw k (.inr hq)
      simp [hq, seqRank] at h
      omega
  | succ fuel ih =>
    intro s t h hw hs
    unfold settle at hs
    split at hs
    · next h1 =>
      cases hs
      exact .inl h1
    · split at hs
      · next s' hm =>
        have hrank := microStep_rank hlen hr hm
        exact ih s' t (by omega) hrank.2 hs
      · next hm =>
        cases hs
        exact .inr hm
      · next h1 _ => exact absurd hs (h1 t)

/-- A run of a micro-program ends at `IDLE` or at a request that has no answer: the fuel is enough. -/
theorem runProgram_end {ops : List MicroOp} {resp : State → State} {s t : State} (hlen : ops.length ≤ 2)
    (hr : ∀ a, (resp a).seq = .idle) (h : runProgram ops resp s = .next t) :
    t.seq = .idle ∨ microStep ops resp t = .fault .busSilent := by
  unfold runProgram at h
  split at h
  · next s' hm =>
    have hrank := microStep_rank hlen hr hm
    have := seqRank_le s.begun.seq
    exact settle_end hlen hr 4 s' t (by omega) hrank.2 h
  · next h1 => exact absurd h (h1 t)

/-- A micro-step is silent exactly at a request that has no answer (R171). -/
theorem microStep_silent_iff {ops : List MicroOp} {resp : State → State} {s : State} :
    microStep ops resp s = .fault .busSilent ↔
      (∃ k addr bytes rs, s.seq = .waitW k ∧ ops[k.val]? = some (.txw addr bytes rs) ∧ s.wrAns = []) ∨
      (∃ k addr n rs, s.seq = .waitR k ∧ ops[k.val]? = some (.txr addr n rs) ∧ s.rdAns = []) := by
  constructor
  · intro h
    unfold microStep at h
    split at h
    · cases h
    · split at h
      · cases h
      · cases h
      · split at h <;> cases h
    · next k hk =>
      split at h
      · cases h
      · next a b r ho hw => exact .inl ⟨k, a, b, r, hk, ho, hw⟩
      · cases h
    · next k hk =>
      split at h
      · cases h
      · next a n r ho hw => exact .inr ⟨k, a, n, r, hk, ho, hw⟩
      · cases h
  · rintro (⟨k, a, b, r, hk, ho, hw⟩ | ⟨k, a, n, r, hk, ho, hw⟩) <;> simp [microStep, hk, ho, hw]

/-- A run that starts at a request that has no answer stops there. -/
theorem runProgram_of_silent {ops : List MicroOp} {resp : State → State} {s : State} (hq : s.seq ≠ .idle)
    (h : microStep ops resp s = .fault .busSilent) : runProgram ops resp s = .fault .busSilent := by
  have hb : s.begun = s := by
    unfold State.begun
    split
    · next h0 => exact absurd h0 hq
    · rfl
  simp [runProgram, hb, h]

/-! ## The invariants -/

/-- Where the sequencer invariant says a busy block is. -/
theorem inv_busy {s : State} (h : s.inv = true) (hq : s.seq ≠ .idle) :
    ∃ c, s.cmdr = some c ∧
      ((∃ i, decode c = .ok i ∧ s.atPosition (microProgram Config.params i) = true) ∨
        ∃ e, decode c = .error e ∧ s.seq = .run 0 ∧ s.buf = []) := by
  unfold State.inv at h
  split at h
  · next h0 => exact absurd h0 hq
  · split at h
    · cases h
    · next c hc =>
      refine ⟨c, hc, ?_⟩
      split at h
      · next i hi => exact .inl ⟨i, hi, h⟩
      · next e he =>
        simp at h
        exact .inr ⟨e, he, h.1, h.2⟩

/-- An observer sees one trace and then another. -/
theorem seeAll_append (a b : List Event) (o : Observer) : o.seeAll (a ++ b) = (o.seeAll a).bind (·.seeAll b) := by
  induction a generalizing o with
  | nil => rfl
  | cons e l ih =>
    simp only [List.cons_append, Observer.seeAll]
    cases o.see e with
    | none => rfl
    | some o' => simp [ih]

@[simp] theorem afterRespond_phase (o : Observer) (c : Command) : (o.afterRespond c).phase = .idle := by
  unfold Observer.afterRespond
  split <;> rfl

/-! ## One step -/

/-- All a step can do: if it answers a next state, the block was idle with nothing to do, or it accepted a word and refused it or
executed it, or it went on with the command in progress (R70, R150). -/
theorem step_cases {s t : State} (h : step s = .next t) :
    (s.seq = .idle ∧ s.cmdIn = [] ∧ t = s) ∨
    (∃ c rest i, s.seq = .idle ∧ s.cmdIn = c :: rest ∧ decode c = .ok i ∧ exec i (s.accept c rest) = .next t) ∨
    (∃ c rest e, s.seq = .idle ∧ s.cmdIn = c :: rest ∧ decode c = .error e ∧ t = (s.accept c rest).refuseIllegal) ∨
    (∃ c i, s.seq ≠ .idle ∧ s.cmdr = some c ∧ decode c = .ok i ∧ exec i s = .next t) ∨
    (∃ c e, s.seq = .run 0 ∧ s.cmdr = some c ∧ decode c = .error e ∧ t = s.refuseIllegal) := by
  have key : ∀ s, runLatched s = .next t → ∃ c, s.cmdr = some c ∧
      ((∃ i, decode c = .ok i ∧ exec i s = .next t) ∨
        ∃ e, decode c = .error e ∧ s.seq = .run 0 ∧ t = s.refuseIllegal) := by
    intro s h
    unfold runLatched at h
    split at h
    · cases h
    · next c hc =>
      refine ⟨c, hc, ?_⟩
      split at h
      · next i hi => exact .inl ⟨i, hi, h⟩
      · next e he =>
        split at h
        · next h0 => exact .inr ⟨e, he, h0, by cases h; rfl⟩
        · cases h
  unfold step at h
  split at h
  · next hq =>
    split at h
    · next hc =>
      cases h
      exact .inl ⟨hq, hc, rfl⟩
    · next c rest hc =>
      obtain ⟨c', hc', ⟨i, h1, h2⟩ | ⟨e, h1, h2, h3⟩⟩ := key _ h
      · cases hc'
        exact .inr (.inl ⟨c, rest, i, hq, hc, h1, h2⟩)
      · cases hc'
        exact .inr (.inr (.inl ⟨c, rest, e, hq, hc, h1, h3⟩))
  · next hq =>
    obtain ⟨c', hc', ⟨i, h1, h2⟩ | ⟨e, h1, h2, h3⟩⟩ := key _ h
    · exact .inr (.inr (.inr (.inl ⟨c', i, hq, hc', h1, h2⟩)))
    · exact .inr (.inr (.inr (.inr ⟨c', e, h2, hc', h1, h3⟩)))

end Sys2Proof.Machine
end

