-- ==== Sys2Proof/Tests/Slice0.lean ====
section
/-! SUPPORT. The model's own tests. Expected values are those of spec/95_test_vectors.md, or worked out by hand from the rule a
test names. The theorems named witness_ give, for every statement of Certificates/Slice0/Obligations.lean that has hypotheses,
operands and a state that meet them. -/

namespace Sys2Proof.Tests

open Sys2Proof Sys2Proof.Machine

/-! ## Which commands are legal -/

/-- One ill-formed term for each check of `Instr.wf` (R58 conditions 3, 4, 6), each beside the nearest legal one. -/
theorem test_wf_refuses :
    (Instr.wrs 0x20 [] false).wf = false ∧ (Instr.wrs 0x20 [1, 2, 3, 4, 5] false).wf = false ∧
    (Instr.rds 0x20 0 false).wf = false ∧ (Instr.rds 0x20 9 false).wf = false ∧
    (Instr.rrd 0x20 3 0).wf = false ∧ (Instr.rrd 0x20 3 9).wf = false ∧
    (Instr.scs 3 .two false 0).wf = false ∧ (Instr.scs 1 .four false 0).wf = false := by decide

theorem test_wf_accepts :
    (Instr.wrs 0x20 [1] false).wf = true ∧ (Instr.wrs 0x20 [1, 2, 3, 4] false).wf = true ∧
    (Instr.rds 0x20 1 false).wf = true ∧ (Instr.rds 0x20 8 false).wf = true ∧
    (Instr.rrd 0x20 3 1).wf = true ∧ (Instr.rrd 0x20 3 8).wf = true ∧
    (Instr.scs 2 .two false 0).wf = true ∧ (Instr.scs 3 .one false 0).wf = true ∧
    (Instr.scs 0 .four false 0).wf = true := by decide

/-! ## Decoding: words written from the field layout of R50 to R56 -/

/-- A word from its fields, most significant first, as R50 draws it: `W B A RS ADDR OPC`. -/
def fieldsWord (w b a rs addr opc : Nat) : Nat :=
  w * 2 ^ 32 + b * 2 ^ 24 + a * 2 ^ 16 + rs * 2 ^ 15 + addr * 2 ^ 8 + opc

theorem test_decode_init :
    decodeTableWord 64 0b0000000000000000000000000000000000000000000000010000000000000001 = some (.init true) := by decide
theorem test_decode_gerr :
    decodeTableWord 64 0b0000000000000000000000000000000000000000000000000000000000000010 = some .gerr := by decide
theorem test_decode_wrs :
    decodeTableWord 64 0b0000000000000000000000000000100000000000000000100010000000000011 =
      some (.wrs 0x20 [0x08, 0x00] false) := by decide
theorem test_decode_rds :
    decodeTableWord 64 0b0000000000000000000000000000000000000000000010001010000000000100 =
      some (.rds 0x20 8 true) := by decide
theorem test_decode_rrd :
    decodeTableWord 64 0b0000000000000000000000000000000011111111000010000111111100000101 =
      some (.rrd 0x7F 0xFF 8) := by decide
theorem test_decode_rwr : decodeTableWord 64 (fieldsWord 0x13 0x09 0 0 0x21 0x06) = some (.rwr 0x21 0x09 0x13) := by decide
theorem test_decode_rdh :
    decodeTableWord 64 (fieldsWord 0x000AFFF6 0 0 0 0x20 0x07) = some (.rdh 0x20 .A (-10) 10) := by decide
theorem test_decode_rdv :
    decodeTableWord 64 (fieldsWord 0x0007FFF9 0 2 0 0x20 0x08) = some (.rdv 0x20 .C (-7) 7) := by decide
theorem test_decode_rda :
    decodeTableWord 64 0b0111111111111111100000000000000000000000000000110000000000001001 =
      some (.rda 0 .D 0x8000 0x7FFF) := by decide
theorem test_decode_btp :
    decodeTableWord 64 0b0000000000000000000000000000000000000000000000000010000000001010 = some (.btp 0x20) := by decide
theorem test_decode_btw : decodeTableWord 64 (fieldsWord 0 0 0 0 0x20 0x0B) = some (.btw 0x20) := by decide
theorem test_decode_btc : decodeTableWord 64 (fieldsWord 0 0 0 0 0x20 0x0C) = some (.btc 0x20) := by decide
theorem test_decode_rdp :
    decodeTableWord 64 (fieldsWord 0xAB 0 1 0 0x20 0x0D) = some (.rdp 0x20 (some 0xAB)) ∧
    decodeTableWord 64 (fieldsWord 0 0 0 0 0x20 0x0D) = some (.rdp 0x20 none) := by decide
theorem test_decode_scs :
    decodeTableWord 64 0b1111111111111111111111111111111000000000000101010000000000001110 =
      some (.scs 1 .two true 0xFFFFFFFE) := by decide
theorem test_decode_scg : decodeTableWord 64 (fieldsWord 0 0 0 0 0 0x0F) = some .scg := by decide

/-- The refused words of spec/95_test_vectors.md section 2.9. -/
def refusedWords : List Nat := [
  0x0000000000000000, 0x0000000000000010, 0x00000000000000FF, 0x0000000000000102, 0x0000000000020001, 0x0000000000012001,
  0x0000000000002003, 0x0000000000052003, 0x0000010300012003, 0x0000000000002004, 0x0000000000092004, 0x000000000301A005,
  0x0000000003092005, 0x0000010008002006, 0x0000000008012006, 0x0000000000042009, 0x0000000001002007, 0x000000010000200A,
  0x000000010000200D, 0x000001000001200D, 0x00000000000C000E, 0x000000000007000E, 0x000000000009000E, 0x000000000020000E,
  0x000000000000010E, 0x000000010000000F]

theorem test_decode_refuses : (refusedWords.all fun w => (decodeTableWord 64 w).isNone) = true := by decide

/-! ## One step on a small state -/

/-- An idle block with `CHK` and `ERR` as given, `SCR = [0x12, 0x34, 0x56, 0x78]`, one word presented and the bus answers given. -/
def start (chk : Bool) (err : ErrCode) (c : Command) (ws : List ErrCode) (rs : List ReadDraw) : State where
  err := err
  chk := chk
  scr := #v[0x12, 0x34, 0x56, 0x78]
  seq := .idle
  cmdr := none
  buf := []
  cmdIn := [c]
  wrAns := ws
  rdAns := rs
  trace := []

/-- What one step does, if it answers a next state: `ERR`, `CHK`, `SCR` and the events after the acceptance. -/
def seen (s : State) : Option (ErrCode × Bool × List Byte × List Event) :=
  match step s with
  | .next t => some (t.err, t.chk, t.scr.toList, t.trace.drop 1)
  | .fault _ => none
  | .refused _ => none

def scr0 : List Byte := [0x12, 0x34, 0x56, 0x78]

theorem test_init : seen (start false 9 0x0000000000010001 [] []) = some (0, true, scr0, [.respond 0 0]) := by decide
theorem test_gerr :
    seen (start true 0xFFFFFC0E 0x0000000000000002 [] []) =
      some (0xFFFFFC0E, true, scr0, [.respond 0 0x00000000FFFFFC0E]) := by decide
theorem test_wrs_reports :
    seen (start true 0 0x0000000800022003 [5] []) =
      some (5, true, scr0,
        [.busWriteReq 0x20 [0x08, 0x00] false, .busWriteAns 5, .diagEmit 0x20, .respond 0 0]) := by decide
theorem test_wrs_second_failure_is_silent :
    seen (start true 5 0x0000000800022003 [9] []) =
      some (9, true, scr0, [.busWriteReq 0x20 [0x08, 0x00] false, .busWriteAns 9, .respond 0 0]) := by decide
theorem test_rds :
    seen (start false 0 0x000000000008A004 [] [#v[1, 2, 3, 4, 5, 6, 7, 8]]) =
      some (0, false, scr0,
        [.busReadReq 0x20 8 true, .busReadAns [1, 2, 3, 4, 5, 6, 7, 8], .respond 0 0x0807060504030201]) := by decide
theorem test_rds_blocked :
    seen (start true 7 0x0000000000062004 [] [#v[1, 2, 3, 4, 5, 6, 7, 8]]) =
      some (7, true, scr0, [.respond 0 0]) := by decide
theorem test_rrd_recovers :
    seen (start true 9 0x0000000000012005 [0] [#v[0x55, 1, 1, 1, 1, 1, 1, 1]]) =
      some (0, true, scr0, [.busWriteReq 0x20 [0x00] true, .busWriteAns 0, .busReadReq 0x20 1 false, .busReadAns [0x55],
        .respond 0 0x55]) := by decide
theorem test_rrd_unchecked_failure :
    seen (start false 0 0x0000000003022005 [7] [#v[0xDE, 0xAD, 1, 1, 1, 1, 1, 1]]) =
      some (7, false, scr0, [.busWriteReq 0x20 [0x03] true, .busWriteAns 7, .busReadReq 0x20 2 false,
        .busReadAns [0xDE, 0xAD], .respond 0 0xADDE]) := by decide
theorem test_rwr :
    seen (start false 0 0x0000001309002106 [0] []) =
      some (0, false, scr0, [.busWriteReq 0x21 [0x09, 0x13] false, .busWriteAns 0, .respond 0 0]) := by decide
theorem test_rdh_keeps_523 :
    seen (start false 0 0x000AFFF600002007 [0] [#v[0x82, 0xC0, 1, 1, 1, 1, 1, 1]]) =
      some (0, false, scr0, [.busWriteReq 0x20 [0x03] true, .busWriteAns 0, .busReadReq 0x20 2 false,
        .busReadAns [0x82, 0xC0], .respond 0 0x020B]) := by decide
theorem test_rdh_mode_d :
    seen (start false 0 0x0000000000032007 [0] [#v[0x40, 0x00, 1, 1, 1, 1, 1, 1]]) =
      some (0, false, scr0, [.busWriteReq 0x20 [0x03] true, .busWriteAns 0, .busReadReq 0x20 2 false,
        .busReadAns [0x40, 0x00], .respond 0 0xFFCE]) := by decide
theorem test_rdv :
    seen (start false 0 0x000AFFF600002008 [0] [#v[0x7D, 0x40, 1, 1, 1, 1, 1, 1]]) =
      some (0, false, scr0, [.busWriteReq 0x20 [0x05] true, .busWriteAns 0, .busReadReq 0x20 2 false,
        .busReadAns [0x7D, 0x40], .respond 0 0x01F5]) := by decide
theorem test_rda :
    seen (start false 0 0x0003FFFB00012009 [0] [#v[0x82, 0x80, 0x7A, 0x00, 0x01, 0x00, 1, 1]]) =
      some (0, false, scr0, [.busWriteReq 0x20 [0x03] true, .busWriteAns 0, .busReadReq 0x20 6 false,
        .busReadAns [0x82, 0x80, 0x7A, 0x00, 0x01, 0x00], .respond 0 0x00000000007A0080]) := by decide
theorem test_rda_blocked :
    seen (start true 2 0x0000000000022009 [2] []) =
      some (2, true, scr0, [.busWriteReq 0x20 [0x03] true, .busWriteAns 2, .respond 0 0x00000001FF80FF80]) := by decide
theorem test_btp_blocked_reads_pressed :
    seen (start true 2 0x000000000000200A [2] []) =
      some (2, true, scr0, [.busWriteReq 0x20 [0x07] true, .busWriteAns 2, .respond 0 1]) := by decide
theorem test_btw :
    seen (start false 0 0x000000000000200B [0] [#v[0x01, 1, 1, 1, 1, 1, 1, 1]]) =
      some (0, false, scr0, [.busWriteReq 0x20 [0x08] true, .busWriteAns 0, .busReadReq 0x20 1 false, .busReadAns [0x01],
        .respond 0 1]) := by decide
theorem test_btw_not_pressed :
    seen (start false 0 0x000000000000200B [0] [#v[0xFF, 1, 1, 1, 1, 1, 1, 1]]) =
      some (0, false, scr0, [.busWriteReq 0x20 [0x08] true, .busWriteAns 0, .busReadReq 0x20 1 false, .busReadAns [0xFF],
        .respond 0 0]) := by decide
theorem test_btc :
    seen (start true 2 0x000000000000200C [0] []) =
      some (0, true, scr0, [.busWriteReq 0x20 [0x08, 0x00] false, .busWriteAns 0, .respond 0 0]) := by decide
theorem test_rdp :
    seen (start false 0 0x000000000000200D [0] [#v[0x12, 0x00, 0x34, 0x00, 0x00, 0x01, 1, 1]]) =
      some (0, false, scr0, [.busWriteReq 0x20 [0x03] true, .busWriteAns 0, .busReadReq 0x20 6 false,
        .busReadAns [0x12, 0x00, 0x34, 0x00, 0x00, 0x01], .respond 0 0x01003412]) := by decide
theorem test_rdp_override_zero :
    seen (start false 0 0x000000000001200D [0] [#v[0x12, 0x00, 0x34, 0x00, 0x77, 0x01, 1, 1]]) =
      some (0, false, scr0, [.busWriteReq 0x20 [0x03] true, .busWriteAns 0, .busReadReq 0x20 6 false,
        .busReadAns [0x12, 0x00, 0x34, 0x00, 0x77, 0x01], .respond 0 0x01003412]) := by decide
theorem test_scs_big_endian :
    seen (start false 0 0xFFFFFFFE0015000E [] []) =
      some (0, false, [0x12, 0xFF, 0xFE, 0x78], [.respond 0 0]) := by decide
theorem test_scs_truncates :
    seen (start false 0 0xABCD12340006000E [] []) =
      some (0, false, [0x12, 0x34, 0x34, 0x12], [.respond 0 0]) := by decide
theorem test_scg :
    seen (start false 0 0x000000000000000F [] []) = some (0, false, scr0, [.respond 0 0x78563412]) := by decide
theorem test_illegal :
    seen (start true 3 0x000000010007000E [] []) = some (3, true, scr0, [.respond 1 0]) := by decide

/-- The characters of spec/95_test_vectors.md section 2.1: `0x3C` gives `'3','C'`, `0x7F` gives `'7','F'`. -/
theorem test_diag_text : diagText true 0x3C = [0x33, 0x43] ∧ diagText true 0x7F = [0x37, 0x46] := by decide

/-! ## Witnesses: the hypotheses of each statement can be met -/

/-- A block with a command in progress at `q`. -/
def running (q : Seq) (c : Option Command) (chk : Bool) (err : ErrCode) (ws : List ErrCode) (rs : List ReadDraw) : State :=
  { start chk err 0 ws rs with seq := q, cmdr := c }

def draw8 : ReadDraw := #v[1, 2, 3, 4, 5, 6, 7, 8]

/-- The word of `BTP 0x20`. -/
def btpWord : Command := 0x000000000000200A

theorem witness_DecodeOfEncode :
    (Instr.scs 3 .one true 0xFFFFFFFF).wf = true ∧ (Instr.wrs 0x7F [0, 0, 0, 0xFF] true).wf = true := by decide

theorem witness_EncodeOfDecode : decode 0x7FFF800000030009 = .ok (.rda 0 .D 0x8000 0x7FFF) := rfl

/-- One word for each way of R58 to be `ILLEGAL`, in its order, and the legal words beside them. -/
theorem witness_IllegalWord :
    IllegalWord 0x10 ∧ IllegalWord 0x0000000000000102 ∧ IllegalWord 0x0000000000052003 ∧ IllegalWord 0x0000010300012003 ∧
    IllegalWord 0x0000000000092004 ∧ IllegalWord 0x000000010000200D ∧ IllegalWord 0x00000000000C000E ∧
    IllegalWord 0x000000000009000E ∧ ¬ IllegalWord 0x0F ∧ ¬ IllegalWord 0x0403020100042003 ∧
    ¬ IllegalWord 0x000000000008A004 ∧ ¬ IllegalWord 0x000000000000200D ∧ ¬ IllegalWord 0xFFFFFFFF0013000E := by
  refine ⟨?_, ?_, ?_, ?_, ?_, ?_, ?_, ?_, ?_, ?_, ?_, ?_, ?_⟩ <;>
    ( simp only [IllegalWord, breaksConstraint]
      decide )

theorem witness_StepExecutes_idle :
    (start false 0 btpWord [] []).seq = .idle ∧ (start false 0 btpWord [] []).cmdIn = [btpWord] ∧
      decode btpWord = .ok (.btp 0x20) := ⟨rfl, rfl, rfl⟩

theorem witness_StepExecutes_busy :
    (running (.waitW 0) (some btpWord) false 0 [] []).seq ≠ .idle ∧
      (running (.waitW 0) (some btpWord) false 0 [] []).cmdr = some btpWord ∧ decode btpWord = .ok (.btp 0x20) :=
  ⟨by decide, rfl, rfl⟩

theorem witness_IllegalWordIsRefused :
    (start true 3 0x0C000E [] []).seq = .idle ∧ (start true 3 0x0C000E [] []).cmdIn = [0x0C000E] ∧ IllegalWord 0x0C000E := by
  simp only [IllegalWord, breaksConstraint]
  decide

theorem witness_BusyBlock :
    (running (.waitW 0) (some btpWord) true 0 [5] []).seq ≠ .idle ∧
      ∃ t, step (running (.waitW 0) (some btpWord) true 0 [5] []) = .next t := ⟨by decide, _, rfl⟩

theorem witness_UnansweredRequest_write :
    (running (.waitW 0) (some btpWord) true 0 [] [draw8]).inv = true ∧
      (running (.waitW 0) (some btpWord) true 0 [] [draw8]).seq = .waitW 0 ∧
      (running (.waitW 0) (some btpWord) true 0 [] [draw8]).wrAns = [] := by decide

theorem witness_UnansweredRequest_read :
    (running (.waitR 1) (some btpWord) true 0 [5] []).inv = true ∧
      (running (.waitR 1) (some btpWord) true 0 [5] []).seq = .waitR 1 ∧
      (running (.waitR 1) (some btpWord) true 0 [5] []).rdAns = [] := by decide

/-- The invariant is met by a block that stops and by one that does not. -/
theorem witness_StepStops :
    step (running (.waitW 0) (some btpWord) true 0 [] [draw8]) = .fault .busSilent ∧
      (start true 0 btpWord [] []).inv = true ∧ ∃ t, step (start true 0 btpWord [] []) = .next t := ⟨rfl, by decide, _, rfl⟩

theorem witness_IdleBlock :
    ({ start true 0 0 [] [] with cmdIn := [] } : State).seq = .idle ∧
      ({ start true 0 0 [] [] with cmdIn := [] } : State).cmdIn = [] := by decide

theorem witness_IllFormedTerm : (Instr.wrs 0x20 [] false).wf = false ∧ (Instr.scs 3 .two true 0).wf = false := by decide

theorem witness_WriteStores :
    (([.txw 0x20 [8, 0] false] : List MicroOp)[(0 : Fin 3).val]? = some (.txw 0x20 [8, 0] false) ∧
      (1 : Fin 3).val = (0 : Fin 3).val + 1) ∧
    (([.txr 1 1 false, .txw 0x20 [8, 0] false] : List MicroOp)[(1 : Fin 3).val]? = some (.txw 0x20 [8, 0] false) ∧
      (2 : Fin 3).val = (1 : Fin 3).val + 1) ∧
    (running (.run 0) (some btpWord) true 0 [] []).seq = .run 0 ∧
    ((running (.waitW 1) (some btpWord) true 0 [] []).seq = .waitW 1 ∧
      (running (.waitW 1) (some btpWord) true 0 [] []).wrAns = []) ∧
    (running (.waitW 1) (some btpWord) true 0 [5] []).seq = .waitW 1 ∧
    (running (.waitW 1) (some btpWord) true 0 [5] []).wrAns = [5] := by decide

theorem witness_ReadIsSkipped :
    (([.txr 0x20 6 false] : List MicroOp)[(0 : Fin 3).val]? = some (.txr 0x20 6 false) ∧
      (1 : Fin 3).val = (0 : Fin 3).val + 1) ∧
    (regReadOps 0x20 3 6)[(1 : Fin 3).val]? = some (.txr 0x20 6 false) ∧
    ((running (.run 1) none true 7 [] []).seq = .run 1 ∧ (running (.run 1) none true 7 [] []).chk = true ∧
      (running (.run 1) none true 7 [] []).err ≠ 0) ∧
    ((running (.run 1) none true 0 [] []).seq = .run 1 ∧
      ¬ ((running (.run 1) none true 0 [] []).chk = true ∧ (running (.run 1) none true 0 [] []).err ≠ 0)) ∧
    ((running (.waitR 0) none true 0 [] []).seq = .waitR 0 ∧ (running (.waitR 0) none true 0 [] []).rdAns = []) ∧
    ((running (.waitR 1) none true 0 [] [draw8]).seq = .waitR 1 ∧
      (running (.waitR 1) none true 0 [] [draw8]).rdAns = [draw8]) := by decide

/-- A micro-step to a wait, one to the next micro-op, one through the response. -/
theorem witness_SequencerAdvances :
    (∃ t, microStep (microProgram Config.params (.btp 0x20)) id (running (.run 0) none true 0 [] []) = .next t) ∧
    (∃ t, microStep (microProgram Config.params (.btp 0x20)) id (running (.waitW 0) none true 0 [5] []) = .next t) ∧
    (∃ t, microStep (microProgram Config.params (.btp 0x20)) id (running (.run 1) none true 5 [] []) = .next t) ∧
    (∃ t, microStep (microProgram Config.params (.btp 0x20)) id (running (.run 2) none true 5 [] []) = .next t) :=
  ⟨⟨_, rfl⟩, ⟨_, rfl⟩, ⟨_, rfl⟩, ⟨_, rfl⟩⟩

theorem witness_SinkReceives :
    (Instr.btc 0x3C).wf = true ∧ microProgram Config.params (.btc 0x3C) = .txw 0x3C [0x08, 0x00] false :: [] ∧
    (∃ t, exec (.btc 0x3C) (running (.run 0) none true 0 [5] []) = .next t ∧ t.sinkText = [0x33, 0x43]) ∧
    (∃ t, exec (.btc 0x3C) (running (.waitW 0) none true 5 [6] []) = .next t ∧ t.sinkText = []) ∧
    (∃ t, exec (.btp 0x3C) (running (.waitR 1) none true 0 [5] [draw8]) = .next t ∧ t.sinkText = []) :=
  ⟨rfl, rfl, ⟨_, rfl, by decide⟩, ⟨_, rfl, by decide⟩, ⟨_, rfl, by decide⟩⟩

theorem witness_UnansweredCommandWaits_write :
    (Instr.btc 0x20).wf = true ∧ microProgram Config.params (.btc 0x20) = .txw 0x20 [0x08, 0x00] false :: [] ∧
      (running (.run 0) none true 7 [] []).seq = .run 0 ∧ (running (.run 0) none true 7 [] []).wrAns = [] := by decide

theorem witness_UnansweredCommandWaits_read :
    (1 ≤ 1 ∧ 1 ≤ 8) ∧ (1 ≤ 8 ∧ 8 ≤ 8) ∧ (running (.run 0) none true 0 [] []).seq = .run 0 ∧
      ¬ ((running (.run 0) none true 0 [] []).chk = true ∧ (running (.run 0) none true 0 [] []).err ≠ 0) ∧
      (running (.run 0) none true 0 [] []).rdAns = [] := by decide

theorem witness_LateAnswers_write :
    (running (.run 0) (some btpWord) true 0 [] [draw8]).seq = .run 0 ∧
      (running (.run 0) (some btpWord) true 0 [] [draw8]).wrAns = [] ∧
      ∃ t, exec (.btp 0x20) (running (.run 0) (some btpWord) true 0 [] [draw8]) = .next t ∧ t.seq = .waitW 0 :=
  ⟨rfl, rfl, _, rfl, rfl⟩

theorem witness_LateAnswers_read :
    (∃ t, exec (.btp 0x20) (running (.run 0) (some btpWord) true 0 [0] []) = .next t ∧ t.seq = .waitR 1) ∧
    (∃ t, exec (.rds 0x20 8 true) (running (.run 0) none true 0 [] []) = .next t ∧ t.seq = .waitR 0) :=
  ⟨⟨_, rfl, rfl⟩, ⟨_, rfl, rfl⟩⟩

/-- The result statements start from `RUN(0)`, in any mode, with any code latched. -/
theorem witness_results_start :
    (running (.run 0) (some 0x0F) true 7 [] []).seq = .run 0 ∧ (running (.run 0) (some 0x0F) false 0 [] []).seq = .run 0 := by
  decide

theorem witness_WritesBus :
    (running (.run 0) none true 0 [5] []).seq = .run 0 ∧ (running (.run 0) none true 0 [5] []).wrAns = 5 :: [] := by decide

/-- The three clauses: a failed write under Check-Mode; a read that is answered; a read that is not. -/
theorem witness_ReadsRegisters :
    ((running (.run 0) none true 0 [5] []).wrAns = 5 :: [] ∧ (running (.run 0) none true 0 [5] []).chk = true ∧
      (5 : ErrCode) ≠ 0) ∧
    ((running (.run 0) none false 0 [5] [draw8]).wrAns = 5 :: [] ∧
      ¬ ((running (.run 0) none false 0 [5] [draw8]).chk = true ∧ (5 : ErrCode) ≠ 0) ∧
      (running (.run 0) none false 0 [5] [draw8]).rdAns = draw8 :: []) ∧
    ((running (.run 0) none true 9 [0] []).wrAns = 0 :: [] ∧
      ¬ ((running (.run 0) none true 9 [0] []).chk = true ∧ (0 : ErrCode) ≠ 0) ∧
      (running (.run 0) none true 9 [0] []).rdAns = []) := by decide

theorem witness_WrsWrites :
    (1 ≤ [(0 : Byte)].length ∧ [(0 : Byte)].length ≤ 4) ∧
      (1 ≤ [(1 : Byte), 2, 3, 4].length ∧ [(1 : Byte), 2, 3, 4].length ≤ 4) := by decide

theorem witness_RdsReads :
    ((running (.run 0) none true 7 [] []).chk = true ∧ (running (.run 0) none true 7 [] []).err ≠ 0) ∧
    (¬ ((running (.run 0) none false 7 [] [draw8]).chk = true ∧ (running (.run 0) none false 7 [] [draw8]).err ≠ 0) ∧
      (running (.run 0) none false 7 [] [draw8]).rdAns = draw8 :: []) := by decide

/-- For each opcode a word with a reserved bit set, and the mask of the statement about it. -/
def reservedWords : List (BitVec 8 × Command × Command) := [
  (0x01, 0x0000000000020001, 0xFFFFFFFFFFFEFF00), (0x02, 0x0000000000000102, 0xFFFFFFFFFFFFFF00),
  (0x06, 0x0000000008012006, 0xFFFFFF0000FF8000), (0x07, 0x0000000001002007, 0x00000000FFFC8000),
  (0x08, 0x000000000000A008, 0x00000000FFFC8000), (0x09, 0x0000000000042009, 0x00000000FFFC8000),
  (0x0A, 0x000000010000200A, 0xFFFFFFFFFFFF8000), (0x0B, 0x800000000000200B, 0xFFFFFFFFFFFF8000),
  (0x0C, 0x000000000000A00C, 0xFFFFFFFFFFFF8000), (0x0D, 0x000001000001200D, 0xFFFFFF00FFFE8000),
  (0x0E, 0x000000000020000E, 0x00000000FFE0FF00), (0x0F, 0x000000010000000F, 0xFFFFFFFFFFFFFF00)]

theorem witness_RefusesReserved :
    (reservedWords.all fun r => decide (r.2.1.extractLsb' 0 8 = r.1 ∧ r.2.1 &&& r.2.2 ≠ 0)) = true := by decide

/-- The words that `WRS`, `RDS`, `RRD`, `RDP` and `SCS` refuse for an operand, one for each alternative. -/
theorem witness_operand_refusals :
    (BitVec.extractLsb' 16 8 (0x2003 : Command)).toNat = 0 ∧ 4 < (BitVec.extractLsb' 16 8 (0x52003 : Command)).toNat ∧
    (BitVec.extractLsb' 32 32 (0x10300012003 : Command)).toNat / 2 ^ 8 ≠ 0 ∧
    BitVec.extractLsb' 24 8 (0x01012003 : Command) ≠ 0 ∧ 8 < (BitVec.extractLsb' 16 8 (0x92004 : Command)).toNat ∧
    BitVec.extractLsb' 32 32 (0x100012004 : Command) ≠ 0 ∧ BitVec.extractLsb' 15 1 (0x301A005 : Command) ≠ 0 ∧
    BitVec.extractLsb' 16 1 (0x10000200D : Command) = 0 ∧ BitVec.extractLsb' 32 8 (0x10000200D : Command) ≠ 0 ∧
    (BitVec.extractLsb' 18 2 (0xC000E : Command)).toNat = 3 ∧
    4 < (BitVec.extractLsb' 16 2 (0x7000E : Command)).toNat + 2 ^ (BitVec.extractLsb' 18 2 (0x7000E : Command)).toNat := by
  decide

theorem witness_ReturnedBytes :
    draw8.toList.length ≤ 8 ∧ (7 < 8) ∧ ([] : List Byte).length ≤ 8 ∧ (0 < 8) := by decide

theorem witness_RegisterRead :
    (Instr.btp 0x20).wf = true ∧ microProgram Config.params (.btp 0x20) = [.txw 0x20 [0x07] true, .txr 0x20 1 false] ∧
      (∃ t, exec (.btp 0x20) (running (.run 0) none true 9 [0] [draw8]) = .next t) ∧
      ∃ t, exec (.btp 0x20) (running (.run 0) none true 9 [5] [draw8]) = .next t := ⟨rfl, rfl, ⟨_, rfl⟩, ⟨_, rfl⟩⟩

/-- At either edge of either band, and one past it. -/
theorem witness_Deadzone :
    ((512 : Int) + -10 ≤ 502 ∧ (502 : Int) < 512) ∧ ((512 : Int) < 522 ∧ (522 : Int) ≤ 512 + 10) ∧
      ¬ (((512 : Int) + -10 ≤ 501 ∧ (501 : Int) < 512) ∨ ((512 : Int) < 501 ∧ (501 : Int) ≤ 512 + 10)) ∧
      ¬ (((512 : Int) + -10 ≤ 523 ∧ (523 : Int) < 512) ∨ ((512 : Int) < 523 ∧ (523 : Int) ≤ 512 + 10)) := by decide

/-- The ends of the four ranges are reached (R102, R103). -/
theorem witness_AxisValue :
    axis .A 0 0 0 0 = 0 ∧ axis .A 0xFF 0xC0 0 0 = 1023 ∧ axis .B 0xFF 0 0 0 = 255 ∧ axis .C 0 0 0 0 = -128 ∧
      axis .C 0xFF 0 0 0 = 127 ∧ axis .D 0 0 0 0 = -100 ∧ axis .D 0xFF 0 0 0 = 100 := by
  refine ⟨?_, ?_, ?_, ?_, ?_, ?_, ?_⟩ <;> decide

theorem witness_MapperLaws : raw16 0x7F 0xFF ≤ raw16 0x80 0x00 ∧ raw16 0 0 ≤ raw16 0xFF 0xFF := by decide

/-- The last byte of the buffer, and all of it. -/
theorem witness_ScsStores :
    (3 : Fin 4).val + ScsSize.bytes .one ≤ 4 ∧ (0 : Fin 4).val + ScsSize.bytes .four ≤ 4 ∧
      (2 : Fin 4).val + ScsSize.bytes .two ≤ 4 := by decide

theorem witness_StagedBytes :
    let words := [encode (.scs 0 .one false ((0x12 : Byte).setWidth 32)), encode (.scs 1 .one false ((0x34 : Byte).setWidth 32)),
      encode (.scs 2 .one false ((0x00 : Byte).setWidth 32)), encode (.scs 3 .one false ((0x01 : Byte).setWidth 32)), encode .scg]
    let s : State := { start false 0 0 [] [] with cmdIn := words }
    s.seq = .idle ∧ s.cmdr = none ∧ s.buf = [] ∧ s.cmdIn = words := by decide

theorem witness_StagedWord :
    let words := [encode (.scs 0 .four false 0x12345678), encode .scg]
    let s : State := { start false 0 0 [] [] with cmdIn := words }
    s.seq = .idle ∧ s.cmdr = none ∧ s.buf = [] ∧ s.cmdIn = words := by decide

theorem witness_RawPair :
    (1 ≤ 2 ∧ 2 ≤ 8) ∧ (start false 0 0 [7] [draw8]).seq = .idle ∧ (start false 0 0 [7] [draw8]).wrAns ≠ [] ∧
      (start false 0 0 [7] [draw8]).rdAns ≠ [] ∧
      (∃ t, Host.Core.run Sys2Proof.core 2 { start false 0 0 [7] [draw8] with
        cmdIn := [encode (.wrs 0x20 [0x03] true), encode (.rds 0x20 2 false)] } = .next t) ∧
      ∃ u, step { start false 0 0 [7] [draw8] with cmdIn := [encode (.rrd 0x20 0x03 2)] } = .next u :=
  ⟨by decide, rfl, by decide, by decide, ⟨_, rfl⟩, ⟨_, rfl⟩⟩

/-- A command that takes both answers, `INIT`, `SCS`, and a command that asks for nothing. -/
theorem witness_CommandsWrite :
    (∃ t, exec (.btp 0x20) (running (.run 0) none true 0 [0] [draw8]) = .next t ∧ t.wrAns = [] ∧ t.rdAns = []) ∧
    (∃ t, exec (.init true) (running (.run 0) none false 9 [] []) = .next t ∧ t.chk = true ∧ t.err = 0) ∧
    (∃ t, exec (.scs 0 .one false 0) (running (.run 0) none false 9 [] []) = .next t ∧
      t.scr = #v[0x00, 0x34, 0x56, 0x78]) ∧
    ((∀ addr bytes rs, MicroOp.txw addr bytes rs ∉ microProgram Config.params (.rds 0x20 1 false)) ∧
      (∀ addr n rs, MicroOp.txr addr n rs ∉ microProgram Config.params (.btc 0x20))) :=
  ⟨⟨_, rfl, rfl, rfl⟩, ⟨_, rfl, rfl, rfl⟩, ⟨_, rfl, rfl⟩, by simp [microProgram], by simp [microProgram, regWriteOps]⟩

theorem witness_AnsweredCommand :
    (Instr.rda 0x20 .A 0 0).wf = true ∧ (running (.run 0) none true 0 [5] [draw8]).seq = .run 0 ∧
      (running (.run 0) none true 0 [5] [draw8]).wrAns ≠ [] ∧ (running (.run 0) none true 0 [5] [draw8]).rdAns ≠ [] := by
  decide

/-- Each of the four values of `SEQ` that a step leaves is left by some step. -/
theorem witness_StepLeaves :
    (∃ t, step (start true 0 0x0F [] []) = .next t ∧ t.seq = .idle) ∧
    (∃ t, step (start true 0 btpWord [] []) = .next t ∧ t.seq = .waitW 0) ∧
    (∃ t, step (start true 0 0x8A004 [] []) = .next t ∧ t.seq = .waitR 0) ∧
    (∃ t, step (start true 0 btpWord [0] []) = .next t ∧ t.seq = .waitR 1) :=
  ⟨⟨_, rfl, rfl⟩, ⟨_, rfl, rfl⟩, ⟨_, rfl, rfl⟩, ⟨_, rfl, rfl⟩⟩

theorem witness_StepKeepsSequencerInvariant :
    (running (.waitR 1) (some btpWord) true 0 [] [draw8]).inv = true ∧
      ∃ t, step (running (.waitR 1) (some btpWord) true 0 [] [draw8]) = .next t := ⟨by decide, _, rfl⟩

/-- A block that has reported a failed write and has skipped the read of `BTP`, and one that has just been reset. -/
theorem witness_StepKeepsTraceInvariant :
    ({ start false 0 0x10001 [] [] with trace := [] } : State).traceInv = true ∧
    ({ running (.run 1) (some btpWord) false 5 [] [draw8] with
      trace := [.accept btpWord, .busWriteReq 0x20 [0x07] true, .busWriteAns 5] } : State).traceInv = true ∧
    ({ running (.run 2) (some btpWord) true 5 [] [] with
      buf := [0]
      trace := [.accept 0x10001, .respond 0 0, .accept btpWord, .busWriteReq 0x20 [0x07] true, .busWriteAns 5,
        .diagEmit 0x20] } : State).traceInv = true ∧
    ({ running (.run 2) (some btpWord) true 5 [] [] with
      buf := [0]
      trace := [.accept 0x10001, .respond 0 0, .accept btpWord, .busWriteReq 0x20 [0x07] true, .busWriteAns 5] } : State).traceInv
        = false ∧
    ∃ t, step (start false 0 0x10001 [] []) = .next t := ⟨by decide, by decide, by decide, by decide, _, rfl⟩

end Sys2Proof.Tests
end

section
/-! PROOFS. The register map of the peripheral (spec/20_memory.md). -/

namespace Sys2Proof.Proofs

/-- R32 for the register map this model runs with: each burst register is its fixed distance above `X_MSB`. -/
theorem params_consecutive : Config.params.Consecutive :=
  ⟨rfl, rfl, rfl, rfl, rfl⟩

/-- Settles O5: the map is consecutive, and its ends have the numbers of R31 by definition of `Config.params`. -/
theorem burstRegistersAreConsecutive : Obligations.BurstRegistersAreConsecutive :=
  ⟨params_consecutive, rfl, rfl⟩

end Sys2Proof.Proofs
end

section
/-! PROOFS. The decoder refuses exactly the `ILLEGAL` words (spec/30_encoding.md rules R51, R52, R58). The opcode table
and the decoder are each compared with the reserved bits of R52, written out once per opcode on the fields of a word. -/

namespace Sys2Proof.Proofs

open Sys2Proof Sys2Proof.Machine

/-- The opcode has a row and every bit that R52 reserves for it is 0. -/
def ReservedBitsClear (f : Fields) : Prop :=
  match f.opc.toNat with
  | 0x01 => f.addr = 0 ∧ f.rs = 0 ∧ f.a &&& 0xFE = 0 ∧ f.b = 0 ∧ f.w = 0
  | 0x02 | 0x0F => f.addr = 0 ∧ f.rs = 0 ∧ f.a = 0 ∧ f.b = 0 ∧ f.w = 0
  | 0x03 => f.b = 0
  | 0x04 => f.b = 0 ∧ f.w = 0
  | 0x05 => f.rs = 0 ∧ f.w = 0
  | 0x06 => f.rs = 0 ∧ f.a = 0 ∧ f.w &&& 0xFFFFFF00 = 0
  | 0x07 | 0x08 | 0x09 => f.rs = 0 ∧ f.a &&& 0xFC = 0 ∧ f.b = 0
  | 0x0A | 0x0B | 0x0C => f.rs = 0 ∧ f.a = 0 ∧ f.b = 0 ∧ f.w = 0
  | 0x0D => f.rs = 0 ∧ f.a &&& 0xFE = 0 ∧ f.b = 0 ∧ f.w &&& 0xFFFFFF00 = 0
  | 0x0E => f.addr = 0 ∧ f.rs = 0 ∧ f.a &&& 0xE0 = 0 ∧ f.b = 0
  | _ => False

/-! ## The opcode table -/

/-- The masks and patterns of the table fix the opcode and the reserved bits of R52, and nothing else. -/
theorem matchesRow_iff_reservedBitsClear (c : Command) :
    (∃ r ∈ opcodeTable, r.Holds c) ↔ ReservedBitsClear (Fields.ofWord c) := by
  have full8 (x : BitVec 8) : x &&& 0xFF#8 = x := BitVec.and_allOnes
  have full7 (x : BitVec 7) : x &&& 0x7F#7 = x := BitVec.and_allOnes
  have full1 (x : BitVec 1) : x &&& 1#1 = x := BitVec.and_allOnes
  have full32 (x : BitVec 32) : x &&& 0xFFFFFFFF#32 = x := BitVec.and_allOnes
  simp only [OpcodeRow.holds_iff_fields, opcodeTable, List.mem_cons, exists_eq_or_imp, List.not_mem_nil]
  generalize Fields.ofWord c = f
  unfold ReservedBitsClear
  split -- on the opcode, which leaves at most one row of the table
  all_goals simp_all [Fields.ofWord, ← BitVec.toNat_inj (x := f.opc)]

/-! ## The decoder -/

@[simp] theorem isOk_ok (i : Instr) : (Except.ok i : Except Illegal Instr).isOk = true := rfl

@[simp] theorem isOk_error (e : Illegal) : (Except.error e : Except Illegal Instr).isOk = false := rfl

section Guards

variable {p : Prop} [Decidable p] {e : Illegal}

theorem isOk_ite_ok {i : Instr} : (if p then Except.ok i else Except.error e).isOk = true ↔ p := by
  split_ifs with h <;> simp [h]

theorem isOk_ite_error {x : Except Illegal Instr} :
    (if p then Except.error e else x).isOk = true ↔ ¬ p ∧ x.isOk = true := by
  split_ifs with h <;> simp [h]

end Guards

/-! Each format's decoder accepts the fields whose reserved bits are clear and whose operands are in range. -/

theorem decodeInit_isOk (f : Fields) :
    f.decodeInit.isOk ↔ f.addr = 0 ∧ f.rs = 0 ∧ f.a &&& 0xFE = 0 ∧ f.b = 0 ∧ f.w = 0 := isOk_ite_ok

theorem decodeZ_isOk (f : Fields) (i : Instr) :
    (f.decodeZ i).isOk ↔ f.addr = 0 ∧ f.rs = 0 ∧ f.a = 0 ∧ f.b = 0 ∧ f.w = 0 := isOk_ite_ok

theorem decodeD_isOk (f : Fields) (i : DevAddr → Instr) :
    (f.decodeD i).isOk ↔ f.rs = 0 ∧ f.a = 0 ∧ f.b = 0 ∧ f.w = 0 := isOk_ite_ok

theorem decodeRwr_isOk (f : Fields) :
    f.decodeRwr.isOk ↔ f.rs = 0 ∧ f.a = 0 ∧ f.w &&& 0xFFFFFF00 = 0 := isOk_ite_ok

theorem decodeM_isOk (f : Fields) (i : DevAddr → Mode → Band → Band → Instr) :
    (f.decodeM i).isOk ↔ f.rs = 0 ∧ f.a &&& 0xFC = 0 ∧ f.b = 0 := isOk_ite_ok

/-- The payload bytes from index `N` on are the quotient of `W` by `2 ^ (8 * N)` (R58, condition 3). -/
theorem decodeWrs_isOk (f : Fields) :
    f.decodeWrs.isOk ↔
      f.b = 0 ∧ ¬ (f.a.toNat = 0 ∨ Config.MAXWR < f.a.toNat) ∧ f.w.toNat / 2 ^ (8 * f.a.toNat) = 0 := by
  have hw : f.w >>> (8 * f.a.toNat) = 0 ↔ f.w.toNat / 2 ^ (8 * f.a.toNat) = 0 := by
    rw [← BitVec.toNat_inj, BitVec.toNat_ushiftRight, Nat.shiftRight_eq_div_pow]
    rfl
  simp only [Fields.decodeWrs, isOk_ite_error, isOk_ok, ne_eq, not_not, hw, and_true]

theorem decodeRds_isOk (f : Fields) :
    f.decodeRds.isOk ↔ (f.b = 0 ∧ f.w = 0) ∧ ¬ (f.a.toNat = 0 ∨ Config.MAXRD < f.a.toNat) := by
  simp only [Fields.decodeRds, isOk_ite_error, isOk_ok, not_or, ne_eq, not_not, and_true]

theorem decodeRrd_isOk (f : Fields) :
    f.decodeRrd.isOk ↔ (f.rs = 0 ∧ f.w = 0) ∧ ¬ (f.a.toNat = 0 ∨ Config.MAXRD < f.a.toNat) := by
  simp only [Fields.decodeRrd, isOk_ite_error, isOk_ok, not_or, ne_eq, not_not, and_true]

/-- With `A[7:1]` clear, `A = 1` and `OVR_EN = 1` are the same (R58, condition 5). -/
theorem decodeRdp_isOk (f : Fields) :
    f.decodeRdp.isOk ↔ (f.rs = 0 ∧ f.a &&& 0xFE = 0 ∧ f.b = 0 ∧ f.w &&& 0xFFFFFF00 = 0) ∧
      ¬ (f.a.getLsbD 0 = false ∧ f.w.extractLsb' 0 8 ≠ 0) := by
  have ha : f.a &&& 0xFE = 0 → (f.a = 1 ↔ f.a.getLsbD 0 = true) := by
    generalize f.a = a
    revert a
    decide
  unfold Fields.decodeRdp
  simp only [isOk_ite_error, not_or, ne_eq, not_not]
  refine and_congr_right fun ⟨_, hreserved, _, _⟩ => ?_
  rw [← Bool.not_eq_true, ← ha hreserved]
  split_ifs <;> simp_all

/-- Only the code 3 has no size, and every other code `SZ` stands for `2 ^ SZ` bytes (R56). -/
theorem ofCode_eq_none_or_bytes (z : BitVec 2) :
    (z.toNat = 3 ∧ ScsSize.ofCode z = none) ∨
      (z.toNat ≠ 3 ∧ ∃ size, ScsSize.ofCode z = some size ∧ size.bytes = 2 ^ z.toNat) := by
  revert z
  decide

theorem decodeScs_isOk (f : Fields) :
    f.decodeScs.isOk ↔ (f.addr = 0 ∧ f.rs = 0 ∧ f.a &&& 0xE0 = 0 ∧ f.b = 0) ∧
      ¬ ((f.a.extractLsb' 2 2).toNat = 3 ∨
        Config.SCRN < (f.a.extractLsb' 0 2).toNat + 2 ^ (f.a.extractLsb' 2 2).toNat) := by
  unfold Fields.decodeScs
  simp only [isOk_ite_error, not_or, ne_eq, not_not]
  refine and_congr_right fun _ => ?_
  obtain ⟨h3, hsize⟩ | ⟨h3, size, hsize, hbytes⟩ := ofCode_eq_none_or_bytes (f.a.extractLsb' 2 2)
  · simp [hsize, h3]
  · simp only [hsize, hbytes, h3, isOk_ite_error, isOk_ok, not_false_eq_true, true_and, and_true]

theorem toWord_opc (f : Fields) : f.toWord.extractLsb' 0 8 = f.opc := congrArg Fields.opc f.ofWord_toWord

theorem toWord_a (f : Fields) : f.toWord.extractLsb' 16 8 = f.a := congrArg Fields.a f.ofWord_toWord

theorem toWord_w (f : Fields) : f.toWord.extractLsb' 32 32 = f.w := congrArg Fields.w f.ofWord_toWord

/-- The decoder checks the reserved bits of the opcode and the constraints of its row. -/
theorem decode_isOk_iff (f : Fields) :
    f.decode.isOk ↔ ReservedBitsClear f ∧ ¬ breaksConstraint f.toWord := by
  simp only [breaksConstraint, toWord_opc, toWord_a, toWord_w]
  unfold Fields.decode
  split
  -- WRS, RDS, RRD, RDP and SCS, whose rows have a constraint
  case h_3 h => simp [ReservedBitsClear, h, decodeWrs_isOk, and_assoc]
  case h_4 h => simp [ReservedBitsClear, h, decodeRds_isOk]
  case h_5 h => simp [ReservedBitsClear, h, decodeRrd_isOk]
  case h_13 h => simp [ReservedBitsClear, h, decodeRdp_isOk]
  case h_14 h => simp [ReservedBitsClear, h, decodeScs_isOk]
  -- an opcode without a row, then the rows without a constraint
  case h_16 => simp_all [ReservedBitsClear]
  all_goals rename_i h; simp [ReservedBitsClear, h, decodeInit_isOk, decodeZ_isOk, decodeRwr_isOk, decodeM_isOk, decodeD_isOk]

theorem wordLegal_eq_isOk (c : Command) : wordLegal c = (Fields.ofWord c).decode.isOk := by
  unfold wordLegal decode
  cases (Fields.ofWord c).decode <;> rfl

/-- R58 for legal words: the decoder's view and the table's agree. -/
theorem wordLegal_iff (c : Command) :
    wordLegal c = true ↔ (∃ r ∈ opcodeTable, r.Holds c) ∧ ¬ breaksConstraint c := by
  rw [wordLegal_eq_isOk, decode_isOk_iff, matchesRow_iff_reservedBitsClear, Fields.toWord_ofWord]

/-- Settles O3: a word is legal exactly when it matches a row and breaks no constraint, and the statement is the negation
of that. -/
theorem wordRefusedExactlyWhenIllegal : Obligations.WordRefusedExactlyWhenIllegal := by
  intro c
  rw [← Bool.not_eq_true, wordLegal_iff, IllegalWord, not_and_or, not_not]
  simp only [not_exists, not_and]

end Sys2Proof.Proofs
end

section
/-! PROOFS. The micro-ops `TXW` and `TXR`: what one micro-step does in each moment of each (spec/40_transport.md rules
R71, R72). -/

namespace Sys2Proof.Proofs

open Sys2Proof Sys2Proof.Machine

theorem nextIndex_eq {k q : Fin 3} (h : q.val = k.val + 1) : nextIndex k = q := by
  have hk : k.val + 1 < 3 := h ▸ q.isLt
  rw [nextIndex, dif_pos hk]
  exact Fin.ext h.symm

section MicroSteps

variable {ops : List MicroOp} {resp : State → State} {s : State} {k : Fin 3} {addr : DevAddr} {rs : Bool}

theorem microStep_txw_sends {bytes : List Byte} (hop : ops[k.val]? = some (.txw addr bytes rs)) (hseq : s.seq = .run k) :
    microStep ops resp s = .next (s.sendWrite k addr bytes rs) := by
  simp only [microStep, hseq, hop]

theorem microStep_txw_answered {bytes : List Byte} {e : ErrCode} {ws : List ErrCode}
    (hop : ops[k.val]? = some (.txw addr bytes rs)) (hseq : s.seq = .waitW k) (hans : s.wrAns = e :: ws) :
    microStep ops resp s = .next (s.takeWrite k addr e ws) := by
  simp only [microStep, hseq, hop, hans]

theorem microStep_txr_skipped {n : Nat} (hop : ops[k.val]? = some (.txr addr n rs)) (hseq : s.seq = .run k)
    (hblocked : s.blocked = true) : microStep ops resp s = .next (s.skipRead k n) := by
  simp only [microStep, hseq, hop, hblocked, if_true]

theorem microStep_txr_sends {n : Nat} (hop : ops[k.val]? = some (.txr addr n rs)) (hseq : s.seq = .run k)
    (hblocked : ¬ s.blocked = true) : microStep ops resp s = .next (s.sendRead k addr n rs) := by
  simp only [microStep, hseq, hop, if_neg hblocked]

theorem microStep_txr_answered {n : Nat} {d : ReadDraw} {ds : List ReadDraw}
    (hop : ops[k.val]? = some (.txr addr n rs)) (hseq : s.seq = .waitR k) (hans : s.rdAns = d :: ds) :
    microStep ops resp s = .next (s.takeRead k n d ds) := by
  simp only [microStep, hseq, hop, hans]

end MicroSteps

/-- Settles O14: the write is sent whatever `CHK` and `ERR` are, hangs without an answer, and takes every answer with its
report. -/
theorem writeStoresEveryAnswerAndReportsFirstFailure : Obligations.WriteStoresEveryAnswerAndReportsFirstFailure := by
  intro ops resp s k q addr bytes rs hop hq
  refine ⟨fun hseq => ?sends, fun hseq hans => ?silent, fun hseq e ws hans => ?answered⟩
  case sends => rw [microStep_txw_sends hop hseq, sendWrite_eq]
  case silent => exact microStep_silent_iff.mpr (.inl ⟨k, addr, bytes, rs, hseq, hop, hans⟩)
  case answered => rw [microStep_txw_answered hop hseq hans, takeWrite_eq, nextIndex_eq hq, State.reportEvents]

/-- Settles O15: Blocked (R17) decides between the zero fill and the request; the request hangs without an answer and takes
the answer's bytes. -/
theorem readIsSkippedExactlyWhenBlocked : Obligations.ReadIsSkippedExactlyWhenBlocked := by
  intro ops resp s k q addr n rs hop hq
  refine ⟨fun hseq hb => ?skipped, fun hseq hb => ?sends, fun hseq hans => ?silent, fun hseq d ds hans => ?answered⟩
  case skipped => rw [microStep_txr_skipped hop hseq ((blocked_iff s).mpr hb), skipRead_eq, nextIndex_eq hq]
  case sends => rw [microStep_txr_sends hop hseq (mt (blocked_iff s).mp hb), sendRead_eq]
  case silent => exact microStep_silent_iff.mpr (.inr ⟨k, addr, n, rs, hseq, hop, hans⟩)
  case answered => rw [microStep_txr_answered hop hseq hans, takeRead_eq, nextIndex_eq hq, answerBytes]

end Sys2Proof.Proofs
end

section
/-! PROOFS. Words refused for a reserved bit or for an operand (spec/30_encoding.md rules R53, R58). -/

namespace Sys2Proof.Proofs

open Sys2Proof Sys2Proof.Machine

/-- Every row of the opcode table has the opcode of its pattern in its mask, and no other row has that opcode. -/
theorem opcodeTable_opcodes :
    ∀ r ∈ opcodeTable, r.mask.extractLsb' 0 8 = 0xFF ∧
      ∀ r' ∈ opcodeTable, r'.pattern.extractLsb' 0 8 = r.pattern.extractLsb' 0 8 → r' = r := by
  decide

/-- A word in a row has the row's opcode. -/
theorem opcode_of_holds {r : OpcodeRow} (hr : r ∈ opcodeTable) {c : Command} (h : r.Holds c) :
    c.extractLsb' 0 8 = r.pattern.extractLsb' 0 8 := by
  rw [← h, BitVec.extractLsb'_and, (opcodeTable_opcodes r hr).1]
  exact BitVec.and_allOnes.symm

/-- A legal word is in the row of its opcode. -/
theorem holds_of_wordLegal {r : OpcodeRow} (hr : r ∈ opcodeTable) {c : Command} (hlegal : wordLegal c = true)
    (hopc : c.extractLsb' 0 8 = r.pattern.extractLsb' 0 8) : r.Holds c := by
  obtain ⟨⟨r', hr', h⟩, -⟩ := (wordLegal_iff c).mp hlegal
  have hsame : r' = r := (opcodeTable_opcodes r hr).2 r' hr' (opcode_of_holds hr' h ▸ hopc)
  exact hsame ▸ h

/-- R53 for one row of the opcode table: with its opcode, a word that has a bit of the row's mask set, other than the
pattern's, spells no command. -/
theorem refusesReserved_of_row {r : OpcodeRow} (hr : r ∈ opcodeTable) {opc : BitVec 8} {reserved : Command}
    (hopc : opc = r.pattern.extractLsb' 0 8) (hmask : r.mask &&& reserved = reserved)
    (hpattern : r.pattern &&& reserved = 0) : RefusesReserved opc reserved := by
  intro c hc hset
  rw [← Bool.not_eq_true]
  intro hlegal
  have hrow : r.Holds c := holds_of_wordLegal hr hlegal (hc.trans hopc)
  apply hset
  calc c &&& reserved = (c &&& r.mask) &&& reserved := by rw [BitVec.and_assoc, hmask]
    _ = 0 := by rw [hrow, hpattern]

/-- R77, R58: which words with the opcode of `RDS` are legal. -/
theorem wordLegal_rds_iff {c : Command} (hopc : c.extractLsb' 0 8 = 0x04) :
    wordLegal c = true ↔ (c.extractLsb' 24 8 = 0 ∧ c.extractLsb' 32 32 = 0) ∧
      ¬ ((c.extractLsb' 16 8).toNat = 0 ∨ Config.MAXRD < (c.extractLsb' 16 8).toNat) := by
  have hdecode : (Fields.ofWord c).decode = (Fields.ofWord c).decodeRds := by
    simp [Fields.decode, show (Fields.ofWord c).opc = 0x04 from hopc]
  rw [wordLegal_eq_isOk, hdecode]
  exact decodeRds_isOk _

/-- R78, R58: which words with the opcode of `RRD` are legal. -/
theorem wordLegal_rrd_iff {c : Command} (hopc : c.extractLsb' 0 8 = 0x05) :
    wordLegal c = true ↔ (c.extractLsb' 15 1 = 0 ∧ c.extractLsb' 32 32 = 0) ∧
      ¬ ((c.extractLsb' 16 8).toNat = 0 ∨ Config.MAXRD < (c.extractLsb' 16 8).toNat) := by
  have hdecode : (Fields.ofWord c).decode = (Fields.ofWord c).decodeRrd := by
    simp [Fields.decode, show (Fields.ofWord c).opc = 0x05 from hopc]
  rw [wordLegal_eq_isOk, hdecode]
  exact decodeRrd_isOk _

end Sys2Proof.Proofs
end

section
/-! PROOFS. The transport commands `RDS`, `RRD`, `RWR` (spec/40_transport.md rules R77 to R79), and the two shapes their
micro-programs have. -/

namespace Sys2Proof.Proofs

open Sys2Proof Sys2Proof.Machine

/-- A command of one write that responds with 0 does what `WritesBus` states (R71, R81). -/
theorem writesBus_of_exec {i : Instr} {addr : DevAddr} {bytes : List Byte} {rs : Bool} (hwf : i.wf = true)
    (hprog : microProgram Config.params i = [.txw addr bytes rs])
    (hexec : ∀ s, exec i s = runCommand i (fun s => s.respond 0 0) s) : WritesBus i addr bytes rs := by
  intro s e ws hseq hans
  rw [hexec, runCommand_of_wf hwf, hprog, runProgram_write _ s addr bytes rs e ws hseq hans fun _ => rfl,
    respond_eq, takeWrite_eq, sendWrite_eq]
  simp [State.responded, State.reportEvents]

/-- A `REGREAD` command that responds with a result of `BUF` does what `ReadsRegisters` states (R74, R81). -/
theorem readsRegisters_of_exec {i : Instr} {addr : DevAddr} {reg : Byte} {n : Nat} {result : List Byte → Result}
    (hwf : i.wf = true) (hprog : microProgram Config.params i = regReadOps addr reg n)
    (hexec : ∀ s, exec i s = runCommand i (fun s => s.respond 0 (result s.buf)) s) :
    ReadsRegisters i addr reg n result := by
  intro s e ws hseq hans
  rw [hexec, runCommand_of_wf hwf, hprog]
  refine ⟨fun hb => ?blocked, fun hb d ds hd => ?answered, fun hb hd => ?waits⟩
  case blocked =>
    rw [runProgram_regRead_blocked _ s addr reg n e ws hseq hans hb fun _ => rfl]
    simp [respond_eq, skipRead_eq, takeWrite_eq, sendWrite_eq, State.responded, State.reportEvents]
  case answered =>
    rw [runProgram_regRead _ s addr reg n e ws d ds hseq hans hb hd]
    simp [respond_eq, takeRead_eq, sendRead_eq, takeWrite_eq, sendWrite_eq, State.responded, State.reportEvents, answerBytes]
  case waits =>
    rw [runProgram_regRead_waits _ s addr reg n e ws hseq hans hb hd]
    simp [sendRead_eq, takeWrite_eq, sendWrite_eq, State.reportEvents]

/-- R57, R77: a zero fill of any length packs to 0. -/
@[simp] theorem packBytes_replicate_zero (n : Nat) : packBytes (List.replicate n 0#8) = 0#64 := by
  induction n with
  | zero => rfl
  | succ n ih => simp [List.replicate_succ, packBytes, ih]

/-- A well-formed `RDS` is the run of its one `TXR`. -/
theorem exec_rds_eq_runProgram {addr : DevAddr} {len : Nat} {rs : Bool} (hpos : 1 ≤ len) (hlen : len ≤ 8) (s : State) :
    exec (.rds addr len rs) s = runProgram [.txr addr len rs] (fun s => s.respond 0 (packBytes s.buf)) s :=
  runCommand_of_wf (i := .rds addr len rs) (decide_eq_true ⟨hpos, hlen⟩) _ s

/-- Settles O23: the read is skipped exactly when Blocked, and a zero fill packs to 0. -/
theorem rdsReadsOrZeroFills : Obligations.RdsReadsOrZeroFills := by
  refine ⟨fun addr len rs s hpos hlen hseq => ⟨fun hb => ?blocked, fun hb d ds hans => ?answered⟩,
    fun c hopc hbad => ?illegal⟩
  case blocked =>
    rw [exec_rds_eq_runProgram hpos hlen,
      runProgram_read_blocked _ s addr len rs hseq ((blocked_iff s).mpr hb) fun _ => rfl]
    simp [respond_eq, skipRead_eq, State.responded]
  case answered =>
    rw [exec_rds_eq_runProgram hpos hlen,
      runProgram_read _ s addr len rs d ds hseq (eq_false_of_ne_true (mt (blocked_iff s).mp hb)) hans fun _ => rfl]
    simp [respond_eq, takeRead_eq, sendRead_eq, State.responded, answerBytes]
  case illegal =>
    rw [← Bool.not_eq_true, wordLegal_rds_iff hopc]
    tauto

/-- Settles O24: `RRD` is `REGREAD` with the bytes packed. -/
theorem rrdReadsAnyRegister : Obligations.RrdReadsAnyRegister := by
  refine ⟨fun addr reg len hpos hlen => ?reads, fun c hopc hbad => ?illegal⟩
  case reads => exact readsRegisters_of_exec (decide_eq_true ⟨hpos, hlen⟩) rfl (exec_rrd addr reg len)
  case illegal =>
    rw [← Bool.not_eq_true, wordLegal_rrd_iff hopc]
    tauto

/-- Settles O25: `RWR` is one write, and its reserved bits are those of its row in the opcode table. -/
theorem rwrWritesAnyRegister : Obligations.RwrWritesAnyRegister := by
  refine ⟨fun addr reg value => writesBus_of_exec rfl rfl (exec_rwr addr reg value), ?_⟩
  have hrow : ⟨"RWR", 0x0000000000000006, 0xFFFFFF0000FF80FF⟩ ∈ opcodeTable := by decide
  exact refusesReserved_of_row hrow (by decide) (by decide) (by decide)

end Sys2Proof.Proofs
end

section
/-! PROOFS. The axis commands `RDH`, `RDV`, `RDA` (spec/41_codec_mapper.md rules R99 to R101). -/

namespace Sys2Proof.Proofs

open Sys2Proof Sys2Proof.Machine

/-- R57: a boolean in one bit of `RES`. -/
theorem boolField_eq_ite (b : Bool) : boolField b = if b = true then 1 else 0 := by
  cases b <;> rfl

theorem boolField_pressed (b : Byte) : boolField (pressed b) = if b = 0x00 then 1 else 0 := by
  simp only [boolField_eq_ite, pressed, decide_eq_true_eq]

theorem boolField_wasPressed (b : Byte) : boolField (wasPressed b) = if b = 0x01 then 1 else 0 := by
  simp only [boolField_eq_ite, wasPressed, decide_eq_true_eq]

/-- Settles O35: `RDH` is `REGREAD` of the X pair, and its reserved bits are those of its row in the opcode table. -/
theorem rdhReturnsTheHorizontalAxis : Obligations.RdhReturnsTheHorizontalAxis := by
  refine ⟨fun addr mode lo hi => readsRegisters_of_exec rfl rfl (exec_rdh addr mode lo hi), ?_⟩
  have hrow : ⟨"RDH", 0x0000000000000007, 0x00000000FFFC80FF⟩ ∈ opcodeTable := by decide
  exact refusesReserved_of_row hrow (by decide) (by decide) (by decide)

/-- Settles O36: `RDV` is `REGREAD` of the Y pair, and its reserved bits are those of its row in the opcode table. -/
theorem rdvReturnsTheVerticalAxis : Obligations.RdvReturnsTheVerticalAxis := by
  refine ⟨fun addr mode lo hi => readsRegisters_of_exec rfl rfl (exec_rdv addr mode lo hi), ?_⟩
  have hrow : ⟨"RDV", 0x0000000000000008, 0x00000000FFFC80FF⟩ ∈ opcodeTable := by decide
  exact refusesReserved_of_row hrow (by decide) (by decide) (by decide)

/-- Settles O37: `RDA` is `REGREAD` of the burst with the sample of its six bytes, whose two booleans are the button decodes;
its reserved bits are those of its row in the opcode table. -/
theorem rdaReturnsTheJoystickSample : Obligations.RdaReturnsTheJoystickSample := by
  refine ⟨fun addr mode lo hi => readsRegisters_of_exec rfl rfl fun s => ?_, ?_⟩
  · rw [exec_rda]
    simp only [sampleField, boolField_pressed, boolField_wasPressed]
    rfl
  · have hrow : ⟨"RDA", 0x0000000000000009, 0x00000000FFFC80FF⟩ ∈ opcodeTable := by decide
    exact refusesReserved_of_row hrow (by decide) (by decide) (by decide)

end Sys2Proof.Proofs
end

section
/-! PROOFS. The Value Codec, the Range Mapper and the Deadzone Normalizer (spec/41_codec_mapper.md rules R90 to R97). -/

namespace Sys2Proof.Proofs

open Sys2Proof Sys2Proof.Machine

/-! ## The codec -/

/-- R90, R33: the pair is big-endian. -/
theorem raw16_eq (msb lsb : Byte) : raw16 msb lsb = 256 * msb.toNat + lsb.toNat := by
  rw [raw16, BitVec.toNat_append, ← Nat.shiftLeft_add_eq_or_of_lt lsb.isLt, Nat.shiftLeft_eq, Nat.mul_comm]

theorem decode16_eq_div (msb lsb : Byte) : decode16 msb lsb = (256 * msb.toNat + lsb.toNat) / 64 := by
  rw [decode16, raw16_eq, Nat.shiftRight_eq_div_pow]

/-- Settles O28: `decode16` is the big-endian pair divided by 64, and the rest is arithmetic of two bytes. -/
theorem decodeOfPairIsShiftBySix : Obligations.DecodeOfPairIsShiftBySix := by
  intro msb lsb
  have hmsb : msb.toNat < 256 := msb.isLt
  have hlsb : lsb.toNat < 256 := lsb.isLt
  rw [decode16_eq_div]
  omega

/-! ## The maps -/

theorem mapRange_A (msb lsb : Byte) : mapRange .A msb lsb = (decode16 msb lsb : Int) := rfl

theorem mapRange_B (msb lsb : Byte) : mapRange .B msb lsb = (msb.toNat : Int) := rfl

theorem mapRange_C (msb lsb : Byte) : mapRange .C msb lsb = (msb.toNat : Int) - 128 := rfl

/-- R95: the integer form of mode D, with its floor division on integers. -/
theorem mapRange_D (msb lsb : Byte) : mapRange .D msb lsb = (200 * (msb.toNat : Int) + 127) / 255 - 100 := by
  simp [mapRange]

/-- Settles O29: the maps and the zero points are the model's equations, case by case. -/
theorem rangeMapsAndZeroPoints : Obligations.RangeMapsAndZeroPoints :=
  ⟨fun msb lsb => ⟨mapRange_A msb lsb, mapRange_B msb lsb, mapRange_C msb lsb⟩, rfl, rfl, rfl, rfl⟩

/-- R95: mode D is within 127/255 of the linear map, so it is its nearest integer. -/
theorem mapRange_D_near (msb lsb : Byte) :
    |255 * mapRange .D msb lsb - (200 * (msb.toNat : Int) - 25500)| ≤ 127 := by
  rw [mapRange_D, abs_le]
  omega

/-- Settles O30: both formulas and the half bound follow from the integer form of mode D, and so do the check points. -/
theorem modeDIsTheNearestInteger : Obligations.ModeDIsTheNearestInteger := by
  refine ⟨fun msb lsb => ⟨?near, mapRange_D msb lsb, ?floored⟩, fun lsb => ?checkPoints⟩
  case near =>
    have hnear := mapRange_D_near msb lsb
    omega
  case floored =>
    rw [mapRange_D]
    omega
  case checkPoints => exact ⟨rfl, rfl, rfl, rfl, rfl⟩

/-! ## The deadzone -/

/-- R97: below the zero point down to `z + lo`, or above it up to `z + hi`, edges included. -/
theorem normalize_of_mem_band {v z lo hi : Int} (h : (z + lo ≤ v ∧ v < z) ∨ (z < v ∧ v ≤ z + hi)) :
    normalize v z lo hi = z := by
  obtain ⟨hlo, hbelow⟩ | ⟨habove, hhi⟩ := h
  · exact if_pos ⟨hbelow, hlo⟩
  · rw [Machine.normalize, if_neg (by omega), if_pos ⟨habove, hhi⟩]

/-- R97: every value outside the band stays. -/
theorem normalize_of_not_mem_band {v z lo hi : Int} (h : ¬ ((z + lo ≤ v ∧ v < z) ∨ (z < v ∧ v ≤ z + hi))) :
    normalize v z lo hi = v := by
  rw [Machine.normalize, if_neg (by omega), if_neg (by omega)]

/-- The zero point is outside its own band. -/
@[simp] theorem normalize_self (z lo hi : Int) : normalize z z lo hi = z :=
  normalize_of_not_mem_band (by omega)

/-- A normalized value is the zero point or the value itself. -/
theorem normalize_eq_zeroPoint_or_self (v z lo hi : Int) : normalize v z lo hi = z ∨ normalize v z lo hi = v := by
  by_cases h : (z + lo ≤ v ∧ v < z) ∨ (z < v ∧ v ≤ z + hi)
  · exact .inl (normalize_of_mem_band h)
  · exact .inr (normalize_of_not_mem_band h)

theorem normalize_idem (v z lo hi : Int) : normalize (normalize v z lo hi) z lo hi = normalize v z lo hi := by
  obtain h | h := normalize_eq_zeroPoint_or_self v z lo hi
  · rw [h, normalize_self]
  · rw [h, h]

/-- Settles O31: the band collapses, everything else stays, so a second pass changes nothing. -/
theorem deadzoneCollapsesExactlyTheBand : Obligations.DeadzoneCollapsesExactlyTheBand := by
  refine ⟨fun v z lo hi => ⟨normalize_of_mem_band, normalize_of_not_mem_band, normalize_idem v z lo hi⟩, ?examples⟩
  case examples => decide

end Sys2Proof.Proofs
end

section
/-! PROOFS. The Button/Status Decoder and its commands `BTP`, `BTW`, `BTC` (spec/42_button.md rules R110 to R114). -/

namespace Sys2Proof.Proofs

open Sys2Proof Sys2Proof.Machine

/-! ## The decodes -/

theorem pressed_iff (b : Byte) : pressed b = true ↔ b = 0x00 := decide_eq_true_iff

theorem wasPressed_iff (b : Byte) : wasPressed b = true ↔ b = 0x01 := decide_eq_true_iff

/-- Settles O38: each decode is the comparison with its one byte value. -/
theorem buttonBytesDecode : Obligations.ButtonBytesDecode :=
  fun b => ⟨pressed_iff b, wasPressed_iff b⟩

/-! ## The commands -/

/-- R112 to R114: the three commands carry nothing but the device address, so each reserves every bit from `CMD[15]` up. -/
theorem refusesReserved_of_button_opcode {opc : BitVec 8} (hopc : opc = 0x0A ∨ opc = 0x0B ∨ opc = 0x0C) :
    RefusesReserved opc 0xFFFFFFFFFFFF8000 := by
  have hrow : ∃ r ∈ opcodeTable, opc = r.pattern.extractLsb' 0 8 ∧
      r.mask &&& 0xFFFFFFFFFFFF8000 = 0xFFFFFFFFFFFF8000 ∧ r.pattern &&& 0xFFFFFFFFFFFF8000 = 0 := by
    obtain rfl | rfl | rfl := hopc <;> decide
  obtain ⟨r, hr, hpat, hmask, hclear⟩ := hrow
  exact refusesReserved_of_row hr hpat hmask hclear

/-- Settles O39: `BTP` is `REGREAD` of BUTTON with the decode of the byte it read. -/
theorem btpReturnsPressed : Obligations.BtpReturnsPressed := by
  refine ⟨fun addr => readsRegisters_of_exec rfl rfl fun s => ?_, refusesReserved_of_button_opcode (.inl rfl)⟩
  simp only [exec_btp, boolField_pressed, State.bufByte]

/-- Settles O40: `BTW` is `REGREAD` of STATUS with the decode of the byte it read. -/
theorem btwReturnsWasPressed : Obligations.BtwReturnsWasPressed := by
  refine ⟨fun addr => readsRegisters_of_exec rfl rfl fun s => ?_, refusesReserved_of_button_opcode (.inr (.inl rfl))⟩
  simp only [exec_btw, boolField_wasPressed, State.bufByte]

/-- Settles O41: `BTC` is one write that responds with 0, and `CHK` and `ERR` decide nothing in it but the report. -/
theorem btcClearsTheStatusRegister : Obligations.BtcClearsTheStatusRegister :=
  ⟨fun addr => writesBus_of_exec rfl rfl (exec_btc addr), refusesReserved_of_button_opcode (.inr (.inr rfl))⟩

end Sys2Proof.Proofs
end

section
/-! PROOFS. The Transmission Packer and the scratch buffer: `RDP`, `SCS`, `SCG` (spec/43_packer.md rules R120 to R124). -/

namespace Sys2Proof.Proofs

open Sys2Proof Sys2Proof.Machine

/-! ## Little-endian words -/

/-- A concatenation, read as a number: the low part counts once, the high part `2 ^ n` times. -/
theorem toNat_append_eq_add {m n : Nat} (x : BitVec m) (y : BitVec n) :
    (x ++ y).toNat = 2 ^ n * x.toNat + y.toNat := by
  rw [BitVec.toNat_append, ← Nat.shiftLeft_add_eq_or_of_lt y.isLt, Nat.shiftLeft_eq, Nat.mul_comm]

/-- R120: the bytes of `LE32` stand side by side, the first one lowest. -/
theorem le32_eq_append (b0 b1 b2 b3 : Byte) : le32 b0 b1 b2 b3 = b3 ++ b2 ++ b1 ++ b0 := by
  ext i hi
  simp only [le32]
  grind

/-- Settles O43: side by side, each byte counts by its place. -/
theorem littleEndianWordOfFourBytes : Obligations.LittleEndianWordOfFourBytes := by
  intro b0 b1 b2 b3
  rw [le32_eq_append]
  simp only [toNat_append_eq_add]
  omega

/-! ## Refusals for an operand -/

/-- R58: a word that breaks a constraint of its row spells no command. -/
theorem not_wordLegal_of_breaksConstraint {c : Command} (h : breaksConstraint c) : wordLegal c = false := by
  rw [← Bool.not_eq_true]
  exact fun hlegal => ((wordLegal_iff c).mp hlegal).2 h

/-- A field inside a field is a field of the word. -/
theorem extractLsb'_extractLsb' {w : Nat} (x : BitVec w) {start len start' len' : Nat} (h : start' + len' ≤ len) :
    (x.extractLsb' start len).extractLsb' start' len' = x.extractLsb' (start + start') len' := by
  ext i hi
  simp only [BitVec.getElem_extractLsb', BitVec.getLsbD_extractLsb', Nat.add_assoc]
  simp [show start' + i < len by omega]

/-! ## `RDP` -/

/-- R122: a Blocked `RDP` reads zeros, and the override alone is left, in byte 2. -/
theorem le32_override (ovr : Byte) : le32 0 0 ovr 0 = ovr.setWidth 32 <<< 16 := by
  simp [le32]

/-- R58, condition 5: an `RDP` with `OVR_EN = 0` and an override byte. -/
theorem breaksConstraint_rdp {c : Command} (hopc : c.extractLsb' 0 8 = 0x0D) (hen : c.extractLsb' 16 1 = 0)
    (hovr : c.extractLsb' 32 8 ≠ 0) : breaksConstraint c := by
  have hbit : (c.extractLsb' 16 8).getLsbD 0 = false := by
    rw [BitVec.getLsbD_eq_extractLsb', extractLsb'_extractLsb' c (by decide), hen]
    rfl
  have hbyte : (c.extractLsb' 32 32).extractLsb' 0 8 ≠ 0 := by
    rwa [extractLsb'_extractLsb' c (by decide)]
  simp only [breaksConstraint, hopc]
  exact .inr (.inr (.inr (.inl ⟨rfl, hbit, hbyte⟩)))

/-- Settles O44: `RDP` is `REGREAD` of the burst with the packed frame of its six bytes; its reserved bits are those of its
row in the opcode table, and a disabled override byte breaks that row's constraint. -/
theorem rdpReturnsThePackedFrame : Obligations.RdpReturnsThePackedFrame := by
  refine ⟨fun addr ovr => readsRegisters_of_exec rfl rfl (exec_rdp addr ovr), fun ovr => le32_override _, ?reserved,
    fun c hopc hen hovr => not_wordLegal_of_breaksConstraint (breaksConstraint_rdp hopc hen hovr)⟩
  case reserved =>
    have hrow : ⟨"RDP", 0x000000000000000D, 0xFFFFFF00FFFE80FF⟩ ∈ opcodeTable := by decide
    exact refusesReserved_of_row hrow (by decide) (by decide) (by decide)

/-! ## `SCS` -/

/-- A well-formed command with no bus micro-op responds at once (R81). -/
theorem runCommand_of_no_microOps {i : Instr} {resp : State → State} {s : State} (hwf : i.wf = true)
    (hprog : microProgram Config.params i = []) (hseq : s.seq = .run 0) (hidle : ∀ a, (resp a).seq = .idle) :
    runCommand i resp s = .next (resp s) := by
  rw [runCommand_of_wf hwf, hprog, runProgram_resp resp s hseq hidle]

/-- R123: for at most four bytes, byte `i` of the value is its bits from `8 * i` on. -/
theorem leBytes_eq_map_range {n : Nat} (hn : n ≤ 4) (value : BitVec 32) :
    leBytes n value = (List.range n).map fun i => value.extractLsb' (8 * i) 8 := by
  interval_cases n <;> rfl

theorem scsSize_bytes_le_four (size : ScsSize) : size.bytes ≤ 4 := by
  cases size <;> decide

@[simp] theorem scsBytes_length (size : ScsSize) (be : Bool) (value : BitVec 32) :
    (scsBytes size be value).length = size.bytes := by
  have hbytes := leBytes_eq_map_range (scsSize_bytes_le_four size) value
  cases be <;> simp [scsBytes, hbytes]

/-- R123: the byte stored at the `i`-th offset, least significant first or most significant first. -/
theorem getElem_scsBytes (size : ScsSize) (be : Bool) (value : BitVec 32) {i : Nat}
    (hi : i < (scsBytes size be value).length) :
    (scsBytes size be value)[i] =
      if be then value.extractLsb' (8 * (size.bytes - 1 - i)) 8 else value.extractLsb' (8 * i) 8 := by
  have hbytes := leBytes_eq_map_range (scsSize_bytes_le_four size) value
  cases be <;> simp [scsBytes, hbytes]

/-- R123: a store writes each byte at its offset and keeps every byte outside them. -/
theorem getElem_storeScr (bs : List Byte) (off : Nat) (v : Vector Byte Config.SCRN) {j : Nat} (hj : j < Config.SCRN) :
    (storeScr off bs v)[j] =
      if h : off ≤ j ∧ j < off + bs.length then bs[j - off] else v[j] := by
  induction bs generalizing off v with
  | nil => simp [storeScr, show ¬ (off ≤ j ∧ j < off) by omega]
  | cons b bs ih =>
    rw [storeScr, ih]
    obtain hbefore | rfl | hafter := Nat.lt_trichotomy j off
    · rw [dif_neg (by omega), dif_neg (by omega), Vector.getElem_setIfInBounds_ne hj (by omega)]
    · rw [dif_neg (by omega), dif_pos (by simp)]
      simp
    · have hindex : j - off = j - (off + 1) + 1 := by omega
      have hcond : (off + 1 ≤ j ∧ j < off + 1 + bs.length) ↔ (off ≤ j ∧ j < off + (b :: bs).length) := by
        rw [List.length_cons]
        omega
      simp only [hcond, hindex, List.getElem_cons_succ, Vector.getElem_setIfInBounds_ne hj (show off ≠ j by omega)]

/-- R58, condition 6: an `SCS` with the reserved size, or one that leaves the buffer. -/
theorem breaksConstraint_scs {c : Command} (hopc : c.extractLsb' 0 8 = 0x0E)
    (hbad : (c.extractLsb' 18 2).toNat = 3 ∨ 4 < (c.extractLsb' 16 2).toNat + 2 ^ (c.extractLsb' 18 2).toNat) :
    breaksConstraint c := by
  simp only [breaksConstraint, hopc, extractLsb'_extractLsb' c (show 2 + 2 ≤ 8 by decide),
    extractLsb'_extractLsb' c (show 0 + 2 ≤ 8 by decide)]
  obtain hsize | hrange := hbad
  · exact .inr (.inr (.inr (.inr (.inl ⟨rfl, hsize⟩))))
  · exact .inr (.inr (.inr (.inr (.inr ⟨rfl, hrange⟩))))

/-- Settles O45: `SCS` has no bus micro-op, so it responds at once, whatever `CHK` and `ERR` are, and its one effect is the
store. -/
theorem scsStoresTheValueBytes : Obligations.ScsStoresTheValueBytes := by
  refine ⟨fun off size be value s hrange hseq =>
      ⟨storeScr off.val (scsBytes size be value) s.scr, ?next, fun j => ?bytes⟩,
    ?reserved, fun c hopc hbad => not_wordLegal_of_breaksConstraint (breaksConstraint_scs hopc hbad)⟩
  case next =>
    rw [exec_scs, runCommand_of_no_microOps (i := .scs off size be value) (decide_eq_true hrange) rfl hseq fun _ => rfl,
      respond_eq]
    simp only [State.responded, State.setScr, List.append_nil]
  case bytes =>
    simp only [Fin.getElem_fin, getElem_storeScr, scsBytes_length, getElem_scsBytes, dite_eq_ite]
  case reserved =>
    have hrow : ⟨"SCS", 0x000000000000000E, 0x00000000FFE0FFFF⟩ ∈ opcodeTable := by decide
    exact refusesReserved_of_row hrow (by decide) (by decide) (by decide)

/-! ## `SCG` -/

/-- Settles O46: `SCG` has no bus micro-op and responds with the scratch word; every bit above its opcode is reserved. -/
theorem scgReturnsTheScratchWord : Obligations.ScgReturnsTheScratchWord := by
  refine ⟨fun s hseq => ?next, ?reserved⟩
  case next =>
    rw [exec_scg, runCommand_of_no_microOps rfl rfl hseq fun _ => rfl, respond_eq]
    simp [State.responded, scrWord]
  case reserved =>
    have hrow : ⟨"SCG", 0x000000000000000F, 0xFFFFFFFFFFFFFFFF⟩ ∈ opcodeTable := by decide
    exact refusesReserved_of_row hrow (by decide) (by decide) (by decide)

end Sys2Proof.Proofs
end

section
/-! PROOFS. The system commands `INIT` and `GERR` (spec/44_system.md rules R135, R136). -/

namespace Sys2Proof.Proofs

open Sys2Proof Sys2Proof.Machine

/-- Settles O20: `INIT` has no bus micro-op, so its final step, the two writes and the response 0, is all it does. -/
theorem initClearsErrorAndSetsCheckMode : Obligations.InitClearsErrorAndSetsCheckMode := by
  refine ⟨fun check s hseq => ?next, ?reserved⟩
  case next =>
    rw [exec_init, runCommand_of_no_microOps rfl rfl hseq fun _ => rfl, respond_eq]
    simp only [State.responded, State.setErr, State.setChk, List.append_nil]
  case reserved =>
    have hrow : ⟨"INIT", 0x0000000000000001, 0xFFFFFFFFFFFEFFFF⟩ ∈ opcodeTable := by decide
    exact refusesReserved_of_row hrow (by decide) (by decide) (by decide)

/-- Settles O21: `GERR` has no bus micro-op and responds with `ERR` as it stands; every bit above its opcode is reserved. -/
theorem gerrReturnsTheLatchedCode : Obligations.GerrReturnsTheLatchedCode := by
  refine ⟨fun s hseq => ?next, ?reserved⟩
  case next =>
    rw [exec_gerr, runCommand_of_no_microOps rfl rfl hseq fun _ => rfl, respond_eq]
    simp only [State.responded, List.append_nil]
  case reserved =>
    have hrow : ⟨"GERR", 0x0000000000000002, 0xFFFFFFFFFFFFFFFF⟩ ∈ opcodeTable := by decide
    exact refusesReserved_of_row hrow (by decide) (by decide) (by decide)

end Sys2Proof.Proofs
end

section
/-! PROOFS. Refusals and the diagnostic report (spec/60_exceptions.md rules R148, R150). -/

namespace Sys2Proof.Proofs

open Sys2Proof Sys2Proof.Machine

/-! ## Refusal -/

theorem decode_error_of_not_wordLegal {c : Command} (h : wordLegal c = false) : ∃ e, decode c = .error e := by
  unfold wordLegal at h
  split at h
  · cases h
  · next e he => exact ⟨e, he⟩

/-- R150: a step that accepts a word which spells no command refuses it. -/
theorem step_of_decode_error {s : State} {c : Command} {rest : List Command} {e : Illegal} (hseq : s.seq = .idle)
    (hin : s.cmdIn = c :: rest) (hdecode : decode c = .error e) : step s = .next (s.accept c rest).refuseIllegal := by
  simp [step, hseq, hin, runLatched, accept_eq, hdecode]

/-- Settles O7: an `ILLEGAL` word does not decode, so the step is its acceptance and the refusal. -/
theorem illegalWordIsRefusedWithoutEffect : Obligations.IllegalWordIsRefusedWithoutEffect := by
  intro s c rest hseq hin hillegal
  obtain ⟨e, he⟩ := decode_error_of_not_wordLegal ((wordRefusedExactlyWhenIllegal c).mpr hillegal)
  rw [step_of_decode_error hseq hin he, refuseIllegal_eq, accept_eq]
  simp only [List.append_assoc, List.cons_append, List.nil_append]

/-! ## The text of a report -/

theorem hexDigit_octal : ∀ d < 8, hexDigit true d =
    [0x30, 0x31, 0x32, 0x33, 0x34, 0x35, 0x36, 0x37].getD d 0 := by
  decide

theorem hexDigit_upper : ∀ d < 16, hexDigit true d =
    [0x30, 0x31, 0x32, 0x33, 0x34, 0x35, 0x36, 0x37, 0x38, 0x39, 0x41, 0x42, 0x43, 0x44, 0x45, 0x46].getD d 0 := by
  decide

/-- R148: the digits of a report are the quotient and the remainder of the address by 16. -/
theorem diagText_eq_digits (addr : DevAddr) :
    diagText true addr = [hexDigit true (addr.toNat / 16), hexDigit true (addr.toNat % 16)] := by
  have hhigh : addr.toNat / 16 < 8 := Nat.div_lt_of_lt_mul addr.isLt
  simp [diagText, BitVec.extractLsb'_toNat, Nat.shiftRight_eq_div_pow, Nat.mod_eq_of_lt hhigh]

/-! ## What each operation sends the sink -/

/-- What the sink receives for a write to `addr` answered `e`, `CHK` and `ERR` as they are in `s` before it (R148). -/
def reportText (s : State) (addr : DevAddr) (e : ErrCode) : List Byte :=
  if s.chk = true ∧ s.err = 0 ∧ e ≠ 0 then diagText Config.params.diagUpper addr else []

theorem reportText_congr {s t : State} (hchk : s.chk = t.chk) (herr : s.err = t.err) (addr : DevAddr) (e : ErrCode) :
    reportText s addr e = reportText t addr e := by
  rw [reportText, reportText, hchk, herr]

theorem sinkText_congr {s t : State} (h : s.trace = t.trace) : s.sinkText = t.sinkText := by
  rw [State.sinkText, State.sinkText, h]

/-- A response sends the sink nothing. -/
theorem sinkText_of_trace_respond {s t : State} {stat : BitVec 1} {res : Result}
    (h : t.trace = s.trace ++ [.respond stat res]) : t.sinkText = s.sinkText := by
  simp [State.sinkText, h]

@[simp] theorem sinkText_refuseIllegal (s : State) : s.refuseIllegal.sinkText = s.sinkText :=
  sinkText_of_trace_respond (congrArg State.trace (refuseIllegal_eq s))

@[simp] theorem sinkText_begun (s : State) : s.begun.sinkText = s.sinkText := by
  obtain ⟨-, -, -, -, -, -, htrace, -, -⟩ := begun_fields s
  exact sinkText_congr htrace

@[simp] theorem sinkText_sendWrite (s : State) (k : Fin 3) (addr : DevAddr) (bytes : List Byte) (rs : Bool) :
    (s.sendWrite k addr bytes rs).sinkText = s.sinkText := by
  simp [State.sinkText, sendWrite_eq]

@[simp] theorem sinkText_skipRead (s : State) (k : Fin 3) (n : Nat) : (s.skipRead k n).sinkText = s.sinkText := rfl

@[simp] theorem sinkText_sendRead (s : State) (k : Fin 3) (addr : DevAddr) (n : Nat) (rs : Bool) :
    (s.sendRead k addr n rs).sinkText = s.sinkText := by
  simp [State.sinkText, sendRead_eq]

@[simp] theorem sinkText_takeRead (s : State) (k : Fin 3) (n : Nat) (d : ReadDraw) (rest : List ReadDraw) :
    (s.takeRead k n d rest).sinkText = s.sinkText := by
  simp [State.sinkText, takeRead_eq]

@[simp] theorem sinkText_takeWrite (s : State) (k : Fin 3) (addr : DevAddr) (e : ErrCode) (rest : List ErrCode) :
    (s.takeWrite k addr e rest).sinkText = s.sinkText ++ reportText s addr e := by
  simp only [State.sinkText, takeWrite_eq, State.reportEvents, reportText]
  split <;> simp

/-! ## What a command sends the sink -/

/-- No write of the program `ops` can be answered from `a` on: there is none, no answer is there, or `SEQ` is past micro-step 0,
where every write stands (R81). -/
def NoAnswerToTake (ops : List MicroOp) (a : State) : Prop :=
  (∀ addr bytes rs, MicroOp.txw addr bytes rs ∉ ops) ∨ a.wrAns = [] ∨ (a.seq ≠ .run 0 ∧ a.seq ≠ .waitW 0)

/-- No answer is left to take, and the sink holds `text`. -/
def SilentWith (ops : List MicroOp) (text : List Byte) (a : State) : Prop := NoAnswerToTake ops a ∧ a.sinkText = text

/-- The write that `s` is at is still to be answered in `a`, and nothing its report depends on has changed. -/
def WritePending (s a : State) : Prop :=
  (a.seq = .run 0 ∨ a.seq = .waitW 0) ∧ a.wrAns = s.wrAns ∧ a.chk = s.chk ∧ a.err = s.err ∧ a.sinkText = s.sinkText

/-- The write to `addr` that `s` is at is still to be answered in `a`, or its answer `e` has been taken and the sink has
received its report. -/
def PendingOrReported (ops : List MicroOp) (s : State) (addr : DevAddr) (e : ErrCode) (a : State) : Prop :=
  WritePending s a ∨ SilentWith ops (s.sinkText ++ reportText s addr e) a

theorem nextIndex_ne_zero : ∀ k : Fin 3, nextIndex k ≠ 0 := by decide

theorem begun_of_ne_idle {s : State} (h : s.seq ≠ .idle) : s.begun = s := by
  unfold State.begun
  split
  · next hidle => exact absurd hidle h
  · rfl

/-- At a write of its program, all that keeps a command from taking an answer is that there is none. -/
theorem NoAnswerToTake.wrAns_eq_nil {i : Instr} {a : State} {k : Fin 3} {addr : DevAddr} {bytes : List Byte} {rs : Bool}
    (h : NoAnswerToTake (microProgram Config.params i) a)
    (hop : (microProgram Config.params i)[k.val]? = some (.txw addr bytes rs))
    (hseq : a.seq = .run k ∨ a.seq = .waitW k) : a.wrAns = [] := by
  have hk : k = 0 := Fin.ext (txw_index hop)
  obtain hnone | hnil | ⟨hrun, hwait⟩ := h
  · exact absurd (List.mem_of_getElem? hop) (hnone addr bytes rs)
  · exact hnil
  · subst hk
    exact absurd hseq (not_or.mpr ⟨hrun, hwait⟩)

/-- A micro-step at an answered first write sends it, or takes its answer with the report and is past it. -/
theorem microStep_of_writePending {ops : List MicroOp} {resp : State → State} {s a b : State} {addr : DevAddr}
    {bytes : List Byte} {rs : Bool} {e : ErrCode} {ws : List ErrCode} (hans : s.wrAns = e :: ws) (ha : WritePending s a)
    (h : microStep (.txw addr bytes rs :: ops) resp a = .next b) :
    PendingOrReported (.txw addr bytes rs :: ops) s addr e b := by
  obtain ⟨hseq | hseq, hwr, hchk, herr, htext⟩ := ha
  · cases (microStep_txw_sends (k := 0) rfl hseq).symm.trans h
    exact .inl ⟨.inr rfl, hwr, hchk, herr, (sinkText_sendWrite ..).trans htext⟩
  · cases (microStep_txw_answered (k := 0) rfl hseq (hwr.trans hans)).symm.trans h
    refine .inr ⟨.inr (.inr (by simp [takeWrite_eq])), ?_⟩
    rw [sinkText_takeWrite, htext, reportText_congr hchk herr]

section Runs

variable {i : Instr} {resp : State → State} {s t : State} {text : List Byte}
  (hresp : ∀ a, (resp a).seq = .idle ∧ (resp a).sinkText = a.sinkText)
include hresp

/-- With no answer to take, a micro-step sends the sink nothing and leaves none to take. -/
theorem microStep_keeps_silentWith {a b : State} (ha : SilentWith (microProgram Config.params i) text a)
    (h : microStep (microProgram Config.params i) resp a = .next b) :
    SilentWith (microProgram Config.params i) text b := by
  obtain ⟨hnone, rfl⟩ := ha
  obtain ⟨k, addr, bytes, rs, hseq, hop, rfl⟩ | ⟨k, addr, n, rs, -, -, -, rfl⟩ | ⟨k, addr, n, rs, -, -, -, rfl⟩ |
    ⟨k, -, -, rfl⟩ | ⟨k, addr, bytes, rs, e, ws, hseq, hop, hans, rfl⟩ | ⟨k, addr, n, rs, d, ds, -, -, -, rfl⟩ :=
    microStep_next_cases h
  · exact ⟨.inr (.inl (hnone.wrAns_eq_nil hop (.inl hseq))), sinkText_sendWrite ..⟩
  · exact ⟨.inr (.inr (by simp [skipRead_eq, nextIndex_ne_zero])), sinkText_skipRead ..⟩
  · exact ⟨.inr (.inr (by simp [sendRead_eq])), sinkText_sendRead ..⟩
  · exact ⟨.inr (.inr (by simp [hresp])), (hresp a).2⟩
  · cases hans.symm.trans (hnone.wrAns_eq_nil hop (.inr hseq))
  · exact ⟨.inr (.inr (by simp [takeRead_eq, nextIndex_ne_zero])), sinkText_takeRead ..⟩

/-- A run with no answer to take sends the sink nothing. -/
theorem runProgram_sinkText_silent (hs : NoAnswerToTake (microProgram Config.params i) s.begun)
    (h : runProgram (microProgram Config.params i) resp s = .next t) : t.sinkText = s.sinkText :=
  (runProgram_induct (SilentWith (microProgram Config.params i) s.sinkText)
    (fun _ _ => microStep_keeps_silentWith hresp) ⟨hs, sinkText_begun s⟩ h).2

/-- A run from a first write whose answer `e` is there sends the sink the report of `e`, and nothing else. -/
theorem runProgram_sinkText_answered {addr : DevAddr} {bytes : List Byte} {rs : Bool} {ops : List MicroOp} {e : ErrCode}
    {ws : List ErrCode} (hprog : microProgram Config.params i = .txw addr bytes rs :: ops)
    (hseq : s.seq = .run 0 ∨ s.seq = .waitW 0) (hans : s.wrAns = e :: ws)
    (h : runProgram (microProgram Config.params i) resp s = .next t) :
    t.sinkText = s.sinkText ++ reportText s addr e := by
  have hbegun : s.begun = s := begun_of_ne_idle (by rcases hseq with hq | hq <;> simp [hq])
  have hend := runProgram_end (microProgram_length i) (fun a => (hresp a).1) h
  have hkeep : ∀ a b, PendingOrReported (microProgram Config.params i) s addr e a →
      microStep (microProgram Config.params i) resp a = .next b →
      PendingOrReported (microProgram Config.params i) s addr e b := by
    rintro a b (hpending | hreported) hstep
    · rw [hprog] at hstep ⊢
      exact microStep_of_writePending hans hpending hstep
    · exact .inr (microStep_keeps_silentWith hresp hreported hstep)
  have hstart : WritePending s s.begun := by simp [WritePending, hbegun, hseq]
  obtain ⟨hq, hwr, -, -, -⟩ | ⟨-, htext⟩ := runProgram_induct _ hkeep (.inl hstart) h
  · rcases hend with hidle | hsilent
    · simp [hidle] at hq
    · rcases microStep_silent_iff.mp hsilent with ⟨_, _, _, _, -, -, hnil⟩ | ⟨_, _, _, _, hwait, -, -⟩
      · cases (hnil.symm.trans hwr).trans hans
      · simp [hwait] at hq
  · exact htext

end Runs

/-- Every command is the run of its micro-program with a final step that ends at `IDLE` and sends the sink nothing. -/
theorem exec_eq_runCommand_silent (i : Instr) :
    ∃ resp : State → State, (∀ s, exec i s = runCommand i resp s) ∧
      ∀ a, (resp a).seq = .idle ∧ (resp a).sinkText = a.sinkText := by
  obtain ⟨resp, hexec, hresp⟩ := exec_eq_runCommand i
  refine ⟨resp, hexec, fun a => ?_⟩
  obtain ⟨hidle, -, -, -, -, -, ⟨res, htrace⟩, -, -⟩ := hresp a
  exact ⟨hidle, sinkText_of_trace_respond htrace⟩

/-- Where R148 has a command send nothing, it has no answer of a write to take. -/
theorem noAnswerToTake_begun {ops : List MicroOp} {s : State}
    (h : (∀ addr bytes rs, MicroOp.txw addr bytes rs ∉ ops) ∨ s.wrAns = [] ∨ s.seq = .run 1 ∨ s.seq = .run 2 ∨
      ∃ k, s.seq = .waitR k) : NoAnswerToTake ops s.begun := by
  obtain hnone | hnil | hpast := h
  · exact .inl hnone
  · obtain ⟨-, -, -, -, hwr, -, -, -, -⟩ := begun_fields s
    exact .inr (.inl (hwr.trans hnil))
  · have hseq : s.seq ≠ .idle ∧ s.seq ≠ .run 0 ∧ s.seq ≠ .waitW 0 := by
      obtain hq | hq | ⟨k, hq⟩ := hpast <;> simp [hq]
    rw [begun_of_ne_idle hseq.1]
    exact .inr (.inr hseq.2)

/-- Settles O17: the text is the two digits of the address; a run from an answered write takes the answer once and reports it
as R148 says, and a run with no answer to take, or a refusal, reports nothing. -/
theorem sinkReceivesTwoHexDigitsOnFirstFailure : Obligations.SinkReceivesTwoHexDigitsOnFirstFailure := by
  refine ⟨fun addr => ?text, fun i s t h => ?_⟩
  case text =>
    rw [show Config.params.diagUpper = true from rfl, diagText_eq_digits,
      hexDigit_octal _ (Nat.div_lt_of_lt_mul addr.isLt), hexDigit_upper _ (Nat.mod_lt _ (by decide))]
  obtain ⟨resp, hexec, hresp⟩ := exec_eq_runCommand_silent i
  rw [hexec] at h
  refine ⟨fun addr bytes rs ops e ws hwf hprog hseq hans => ?answered, fun hquiet => ?silent⟩
  case answered =>
    rw [runCommand_of_wf hwf] at h
    exact runProgram_sinkText_answered hresp hprog hseq hans h
  case silent =>
    cases hwf : i.wf with
    | false =>
      cases (runCommand_of_not_wf hwf resp s).symm.trans h
      exact sinkText_refuseIllegal s
    | true =>
      rw [runCommand_of_wf hwf] at h
      have hrest := hquiet.resolve_left (by simp [hwf])
      exact runProgram_sinkText_silent hresp (noAnswerToTake_begun hrest) h

end Sys2Proof.Proofs
end

section
/-! PROOFS. Power-on reset and the hazards of a busy block (spec/70_reset_and_hazards.md rules R165, R169, R171). -/

namespace Sys2Proof.Proofs

open Sys2Proof Sys2Proof.Machine

/-! ## Power-on reset -/

/-- Settles O49: each field has its value of R165 by definition of `State.reset`. -/
theorem powerOnStateIsAsStated : Obligations.PowerOnStateIsAsStated :=
  ⟨rfl, rfl, rfl, rfl, rfl, rfl⟩

/-! ## A busy block accepts nothing -/

/-- From `s` to `t` no presented word is taken, and the new events hold no acceptance (R169). -/
def AcceptsNothing (s t : State) : Prop :=
  t.cmdIn = s.cmdIn ∧ ∃ evs : List Event, t.trace = s.trace ++ evs ∧ ∀ c : Command, Event.accept c ∉ evs

/-- An operation that leaves the command port and the trace alone accepts nothing. -/
theorem AcceptsNothing.of_eq {s t : State} (hport : t.cmdIn = s.cmdIn) (htrace : t.trace = s.trace) : AcceptsNothing s t :=
  ⟨hport, [], by simpa using htrace, by simp⟩

theorem AcceptsNothing.trans {s t u : State} (hst : AcceptsNothing s t) (htu : AcceptsNothing t u) : AcceptsNothing s u := by
  obtain ⟨hport, evs, htrace, hevs⟩ := hst
  obtain ⟨hport', evs', htrace', hevs'⟩ := htu
  exact ⟨hport'.trans hport, evs ++ evs', by rw [htrace', htrace, List.append_assoc],
    fun c => by simp [hevs c, hevs' c]⟩

theorem acceptsNothing_begun (s : State) : AcceptsNothing s s.begun := by
  obtain ⟨-, -, -, hport, -, -, htrace, -, -⟩ := begun_fields s
  exact .of_eq hport htrace

theorem acceptsNothing_refuseIllegal (s : State) : AcceptsNothing s s.refuseIllegal :=
  ⟨rfl, [.respond 1 0], rfl, by simp⟩

theorem acceptsNothing_sendWrite (s : State) (k : Fin 3) (addr : DevAddr) (bytes : List Byte) (rs : Bool) :
    AcceptsNothing s (s.sendWrite k addr bytes rs) :=
  ⟨rfl, [.busWriteReq addr bytes rs], rfl, by simp⟩

theorem acceptsNothing_takeWrite (s : State) (k : Fin 3) (addr : DevAddr) (e : ErrCode) (rest : List ErrCode) :
    AcceptsNothing s (s.takeWrite k addr e rest) := by
  rw [takeWrite_eq]
  refine ⟨rfl, .busWriteAns e :: s.reportEvents addr e, rfl, fun c => ?_⟩
  unfold State.reportEvents
  split <;> simp

theorem acceptsNothing_sendRead (s : State) (k : Fin 3) (addr : DevAddr) (n : Nat) (rs : Bool) :
    AcceptsNothing s (s.sendRead k addr n rs) :=
  ⟨rfl, [.busReadReq addr n rs], rfl, by simp⟩

theorem acceptsNothing_takeRead (s : State) (k : Fin 3) (n : Nat) (d : ReadDraw) (rest : List ReadDraw) :
    AcceptsNothing s (s.takeRead k n d rest) :=
  ⟨rfl, [.busReadAns (answerBytes n d)], rfl, by simp⟩

/-- A micro-step accepts nothing, if the final step of its program accepts nothing. -/
theorem microStep_acceptsNothing {ops : List MicroOp} {resp : State → State} {s t : State}
    (hresp : ∀ a, AcceptsNothing a (resp a)) (h : microStep ops resp s = .next t) : AcceptsNothing s t := by
  obtain ⟨k, addr, bytes, rs, -, -, rfl⟩ | ⟨k, addr, n, rs, -, -, -, rfl⟩ | ⟨k, addr, n, rs, -, -, -, rfl⟩ |
    ⟨k, -, -, rfl⟩ | ⟨k, addr, bytes, rs, e, rest, -, -, -, rfl⟩ | ⟨k, addr, n, rs, d, rest, -, -, -, rfl⟩ :=
    microStep_next_cases h
  · exact acceptsNothing_sendWrite ..
  · exact .of_eq rfl rfl
  · exact acceptsNothing_sendRead ..
  · exact hresp s
  · exact acceptsNothing_takeWrite ..
  · exact acceptsNothing_takeRead ..

/-- The execution of a command, legal or not, accepts nothing. -/
theorem exec_acceptsNothing {i : Instr} {s t : State} (h : exec i s = .next t) : AcceptsNothing s t := by
  obtain ⟨resp, hexec, hresp⟩ := exec_eq_runCommand i
  have hfinal : ∀ a, AcceptsNothing a (resp a) := by
    intro a
    obtain ⟨-, -, -, hport, -, -, ⟨res, htrace⟩, -, -⟩ := hresp a
    exact ⟨hport, [.respond 0 res], htrace, by simp⟩
  rw [hexec] at h
  cases hwf : i.wf with
  | false =>
    cases (runCommand_of_not_wf hwf resp s).symm.trans h
    exact acceptsNothing_refuseIllegal s
  | true =>
    rw [runCommand_of_wf hwf] at h
    exact runProgram_induct (AcceptsNothing s) (fun _ _ ha hstep => ha.trans (microStep_acceptsNothing hfinal hstep))
      (acceptsNothing_begun s) h

/-- Settles O8: a step of a busy block executes the latched command or refuses the latched word, and neither accepts. -/
theorem busyBlockAcceptsNoCommand : Obligations.BusyBlockAcceptsNoCommand := by
  intro s t hbusy h
  obtain ⟨hidle, -, -⟩ | ⟨_, _, _, hidle, -, -, -⟩ | ⟨_, _, _, hidle, -, -, -⟩ | ⟨c, i, -, -, -, hexec⟩ |
    ⟨c, e, -, -, -, rfl⟩ := step_cases h
  · exact absurd hidle hbusy
  · exact absurd hidle hbusy
  · exact absurd hidle hbusy
  · exact exec_acceptsNothing hexec
  · exact acceptsNothing_refuseIllegal s

/-! ## What decodes is well-formed -/

theorem decodeInit_wf {f : Fields} {i : Instr} (h : f.decodeInit = .ok i) : i.wf = true := by
  unfold Fields.decodeInit at h
  split_ifs at h
  cases h
  rfl

theorem decodeZ_wf {f : Fields} {i j : Instr} (hj : j.wf = true) (h : f.decodeZ j = .ok i) : i.wf = true := by
  unfold Fields.decodeZ at h
  split_ifs at h
  cases h
  exact hj

theorem decodeD_wf {f : Fields} {i : Instr} {j : DevAddr → Instr} (hj : ∀ addr, (j addr).wf = true)
    (h : f.decodeD j = .ok i) : i.wf = true := by
  unfold Fields.decodeD at h
  split_ifs at h
  cases h
  exact hj _

theorem decodeM_wf {f : Fields} {i : Instr} {j : DevAddr → Mode → Band → Band → Instr}
    (hj : ∀ addr mode lo hi, (j addr mode lo hi).wf = true) (h : f.decodeM j = .ok i) : i.wf = true := by
  unfold Fields.decodeM at h
  split_ifs at h
  cases h
  exact hj ..

theorem decodeRwr_wf {f : Fields} {i : Instr} (h : f.decodeRwr = .ok i) : i.wf = true := by
  unfold Fields.decodeRwr at h
  split_ifs at h
  cases h
  rfl

theorem decodeRdp_wf {f : Fields} {i : Instr} (h : f.decodeRdp = .ok i) : i.wf = true := by
  unfold Fields.decodeRdp at h
  split_ifs at h <;> cases h <;> rfl

/-- R58, condition 3: the payload has as many bytes as `N` says, 1 to 4. -/
theorem decodeWrs_wf {f : Fields} {i : Instr} (h : f.decodeWrs = .ok i) : i.wf = true := by
  unfold Fields.decodeWrs at h
  split_ifs at h with _ hlen
  cases h
  simp only [Instr.wf, payloadOf, List.length_take, List.length_cons, List.length_nil, decide_eq_true_eq]
  omega

/-- R58, condition 4, for `RDS`. -/
theorem decodeRds_wf {f : Fields} {i : Instr} (h : f.decodeRds = .ok i) : i.wf = true := by
  unfold Fields.decodeRds at h
  split_ifs at h with _ hlen
  cases h
  simp only [Instr.wf, decide_eq_true_eq]
  omega

/-- R58, condition 4, for `RRD`. -/
theorem decodeRrd_wf {f : Fields} {i : Instr} (h : f.decodeRrd = .ok i) : i.wf = true := by
  unfold Fields.decodeRrd at h
  split_ifs at h with _ hlen
  cases h
  simp only [Instr.wf, decide_eq_true_eq]
  omega

/-- R58, condition 6. -/
theorem decodeScs_wf {f : Fields} {i : Instr} (h : f.decodeScs = .ok i) : i.wf = true := by
  unfold Fields.decodeScs at h
  split_ifs at h
  split at h
  · cases h
  · split_ifs at h with hrange
    cases h
    simpa [Instr.wf] using hrange

/-- R58: a word that decodes spells a legal command. -/
theorem decode_wf {c : Command} {i : Instr} (h : decode c = .ok i) : i.wf = true := by
  unfold decode Fields.decode at h
  split at h
  case h_1 => exact decodeInit_wf h
  case h_2 => exact decodeZ_wf rfl h
  case h_3 => exact decodeWrs_wf h
  case h_4 => exact decodeRds_wf h
  case h_5 => exact decodeRrd_wf h
  case h_6 => exact decodeRwr_wf h
  case h_7 | h_8 | h_9 => exact decodeM_wf (fun _ _ _ _ => rfl) h
  case h_10 | h_11 | h_12 => exact decodeD_wf (fun _ => rfl) h
  case h_13 => exact decodeRdp_wf h
  case h_14 => exact decodeScs_wf h
  case h_15 => exact decodeZ_wf rfl h
  case h_16 => cases h

/-! ## An unanswered request is stuck -/

theorem isTxw_iff {op : Option MicroOp} : isTxw op = true ↔ ∃ addr bytes rs, op = some (.txw addr bytes rs) := by
  unfold isTxw
  split <;> simp

theorem isTxr_iff {op : Option MicroOp} : isTxr op = true ↔ ∃ addr n rs, op = some (.txr addr n rs) := by
  unfold isTxr
  split <;> simp

/-- R70: past acceptance a step goes on executing the latched command. -/
theorem step_of_busy {s : State} {c : Command} {i : Instr} (hbusy : s.seq ≠ .idle) (hcmdr : s.cmdr = some c)
    (hdecode : decode c = .ok i) : step s = exec i s := by
  unfold step
  split
  · next hidle => exact absurd hidle hbusy
  · simp only [runLatched, hcmdr, hdecode]

/-- Past micro-step 0 the sequencer invariant has `SEQ` at a position of the latched command's micro-program. -/
theorem inv_atPosition {s : State} (hinv : s.inv = true) (hbusy : s.seq ≠ .idle) (hpast : s.seq ≠ .run 0) :
    ∃ c i, s.cmdr = some c ∧ decode c = .ok i ∧ s.atPosition (microProgram Config.params i) = true := by
  obtain ⟨c, hcmdr, ⟨i, hdecode, hpos⟩ | ⟨_, -, hrun, -⟩⟩ := inv_busy hinv hbusy
  · exact ⟨c, i, hcmdr, hdecode, hpos⟩
  · exact absurd hrun hpast

/-- The request a position waits for has no answer, so the micro-step there is silent. -/
theorem microStep_silent_of_atPosition {ops : List MicroOp} {resp : State → State} {s : State}
    (hpos : s.atPosition ops = true)
    (hans : ((∃ k, s.seq = .waitW k) ∧ s.wrAns = []) ∨ ((∃ k, s.seq = .waitR k) ∧ s.rdAns = [])) :
    microStep ops resp s = .fault .busSilent := by
  obtain ⟨⟨k, hseq⟩, hnil⟩ | ⟨⟨k, hseq⟩, hnil⟩ := hans <;>
    simp only [State.atPosition, hseq, Bool.and_eq_true, isTxw_iff, isTxr_iff] at hpos
  · obtain ⟨⟨addr, bytes, rs, hop⟩, -⟩ := hpos
    exact microStep_silent_iff.mpr (.inl ⟨k, addr, bytes, rs, hseq, hop, hnil⟩)
  · obtain ⟨⟨addr, n, rs, hop⟩, -⟩ := hpos
    exact microStep_silent_iff.mpr (.inr ⟨k, addr, n, rs, hseq, hop, hnil⟩)

/-- R171: from a state of the sequencer invariant that waits for an answer which is not there, the step is stuck. -/
theorem step_of_unanswered {s : State} (hinv : s.inv = true)
    (hans : ((∃ k, s.seq = .waitW k) ∧ s.wrAns = []) ∨ ((∃ k, s.seq = .waitR k) ∧ s.rdAns = [])) :
    step s = .fault .busSilent := by
  have hwaiting : s.seq ≠ .idle ∧ s.seq ≠ .run 0 := by
    obtain ⟨⟨k, hseq⟩, -⟩ | ⟨⟨k, hseq⟩, -⟩ := hans <;> simp [hseq]
  obtain ⟨hbusy, hpast⟩ := hwaiting
  obtain ⟨c, i, hcmdr, hdecode, hpos⟩ := inv_atPosition hinv hbusy hpast
  obtain ⟨resp, hexec, -⟩ := exec_eq_runCommand i
  rw [step_of_busy hbusy hcmdr hdecode, hexec, runCommand_of_wf (decode_wf hdecode)]
  exact runProgram_of_silent hbusy (microStep_silent_of_atPosition hpos hans)

/-- Settles O9: the invariant puts `SEQ` at a request of the latched, legal command, and a run that starts at an unanswered
request stops there. -/
theorem unansweredRequestIsStuck : Obligations.UnansweredRequestIsStuck :=
  fun _ hinv => ⟨fun hseq hans => step_of_unanswered hinv (.inl ⟨hseq, hans⟩),
    fun hseq hans => step_of_unanswered hinv (.inr ⟨hseq, hans⟩)⟩

end Sys2Proof.Proofs
end

section
/-! PROOFS. The round trips of the encoding (spec/30_encoding.md rules R50 to R58, R62). -/

namespace Sys2Proof.Proofs

open Sys2Proof Sys2Proof.Machine

/-! ## From a command to its fields and back -/

/-- R58: a length that fits a field of 8 bits is read back from it. -/
theorem toNat_ofNat_length {n : Nat} (h : n ≤ 8) : (BitVec.ofNat 8 n).toNat = n := by
  rw [BitVec.toNat_ofNat, Nat.mod_eq_of_lt (by omega)]

theorem decodeWrs_fields (addr : DevAddr) (payload : List Byte) (rs : Bool) (hpos : 1 ≤ payload.length)
    (hlen : payload.length ≤ 4) : (Instr.wrs addr payload rs).fields.decodeWrs = .ok (.wrs addr payload rs) := by
  have hn := toNat_ofNat_length (show payload.length ≤ 8 by omega)
  have hrange : ¬ (payload.length = 0 ∨ Config.MAXWR < payload.length) := by
    simp only [Config.MAXWR]
    omega
  simp only [Fields.decodeWrs, Instr.fields, hn, payloadOf_payloadWord payload hpos hlen, payloadWord_shift payload hlen]
  rw [if_neg (by simp), if_neg hrange, if_neg (by simp)]
  cases rs <;> rfl

theorem decodeRds_fields (addr : DevAddr) (len : Nat) (rs : Bool) (hpos : 1 ≤ len) (hlen : len ≤ 8) :
    (Instr.rds addr len rs).fields.decodeRds = .ok (.rds addr len rs) := by
  have hrange : ¬ (len = 0 ∨ Config.MAXRD < len) := by
    simp only [Config.MAXRD]
    omega
  simp only [Fields.decodeRds, Instr.fields, toNat_ofNat_length hlen]
  rw [if_neg (by simp), if_neg hrange]
  cases rs <;> rfl

theorem decodeRrd_fields (addr : DevAddr) (reg : Byte) (len : Nat) (hpos : 1 ≤ len) (hlen : len ≤ 8) :
    (Instr.rrd addr reg len).fields.decodeRrd = .ok (.rrd addr reg len) := by
  have hrange : ¬ (len = 0 ∨ Config.MAXRD < len) := by
    simp only [Config.MAXRD]
    omega
  simp only [Fields.decodeRrd, Instr.fields, toNat_ofNat_length hlen]
  rw [if_neg (by simp), if_neg hrange]

theorem decodeRwr_fields (addr : DevAddr) (reg value : Byte) :
    (Instr.rwr addr reg value).fields.decodeRwr = .ok (.rwr addr reg value) := by
  rw [Fields.decodeRwr, if_pos ⟨rfl, rfl, setWidth_byte_and_high value⟩]
  simp only [Instr.fields, extract_setWidth_byte]

theorem modeField_spec (mode : Mode) :
    mode.code.setWidth 8 &&& 0xFC#8 = 0 ∧ Mode.ofCode ((mode.code.setWidth 8).extractLsb' 0 2) = mode := by
  cases mode <;> decide

/-- Format M (R52), for each of its three commands. -/
theorem decodeM_fields (opc : BitVec 8) (addr : DevAddr) (mode : Mode) (lo hi : Band)
    (i : DevAddr → Mode → Band → Band → Instr) :
    Fields.decodeM ⟨opc, addr, 0, mode.code.setWidth 8, 0, bandWord lo hi⟩ i = .ok (i addr mode lo hi) := by
  obtain ⟨hreserved, hmode⟩ := modeField_spec mode
  rw [Fields.decodeM, if_pos ⟨rfl, hreserved, rfl⟩]
  simp only [hmode, Config.BANDW, bandWord_lo, bandWord_hi]

theorem decodeRdp_fields (addr : DevAddr) (ovr : Option Byte) :
    (Instr.rdp addr ovr).fields.decodeRdp = .ok (.rdp addr ovr) := by
  cases ovr with
  | none => simp [Fields.decodeRdp, Instr.fields]
  | some b => simp [Fields.decodeRdp, Instr.fields, setWidth_byte_and_high, extract_setWidth_byte]

/-- The `A` field of an `SCS` (R52, R56): the offset, the size code and the byte order, each in its bits. -/
def scsField (off : Fin Config.SCRN) (size : ScsSize) (be : Bool) : BitVec 8 :=
  (BitVec.ofBool be).setWidth 8 <<< 4 ||| size.code.setWidth 8 <<< 2 ||| BitVec.ofNat 8 off.val

theorem scsField_spec (off : Fin Config.SCRN) (size : ScsSize) (be : Bool) :
    scsField off size be &&& 0xE0 = 0 ∧ ScsSize.ofCode ((scsField off size be).extractLsb' 2 2) = some size ∧
      ((scsField off size be).extractLsb' 0 2).toFin = off ∧ (scsField off size be).getLsbD 4 = be := by
  revert off
  cases size <;> cases be <;> decide

theorem decodeScs_fields (off : Fin Config.SCRN) (size : ScsSize) (be : Bool) (value : BitVec 32)
    (hrange : off.val + size.bytes ≤ Config.SCRN) :
    (Instr.scs off size be value).fields.decodeScs = .ok (.scs off size be value) := by
  obtain ⟨hreserved, hsize, hoff, hbe⟩ := scsField_spec off size be
  have hoffNat : ((scsField off size be).extractLsb' 0 2).toNat = off.val := congrArg Fin.val hoff
  change Fields.decodeScs ⟨0x0E, 0, 0, scsField off size be, 0, value⟩ = _
  simp only [Fields.decodeScs, hreserved, hsize, hoff, hoffNat, hbe]
  rw [if_neg (by simp), if_neg (by omega)]

/-- R50 to R56: the fields a legal command is written with decode to it. -/
theorem decode_fields {i : Instr} (h : i.wf = true) : i.fields.decode = .ok i := by
  cases i with
  | init check => cases check <;> rfl
  | gerr => rfl
  | wrs addr payload rs =>
    obtain ⟨hpos, hlen⟩ := of_decide_eq_true h
    exact decodeWrs_fields addr payload rs hpos hlen
  | rds addr len rs =>
    obtain ⟨hpos, hlen⟩ := of_decide_eq_true h
    exact decodeRds_fields addr len rs hpos hlen
  | rrd addr reg len =>
    obtain ⟨hpos, hlen⟩ := of_decide_eq_true h
    exact decodeRrd_fields addr reg len hpos hlen
  | rwr addr reg value => exact decodeRwr_fields addr reg value
  | rdh addr mode lo hi => exact decodeM_fields 0x07 addr mode lo hi .rdh
  | rdv addr mode lo hi => exact decodeM_fields 0x08 addr mode lo hi .rdv
  | rda addr mode lo hi => exact decodeM_fields 0x09 addr mode lo hi .rda
  | btp addr => rfl
  | btw addr => rfl
  | btc addr => rfl
  | rdp addr ovr =>
    cases ovr with
    | none => exact decodeRdp_fields addr none
    | some b => exact decodeRdp_fields addr (some b)
  | scs off size be value => exact decodeScs_fields off size be value (of_decide_eq_true h)
  | scg => rfl

/-- Settles O1: the word of a command has the command's fields, and these decode to it. -/
theorem decodeOfEncodeIsTheCommand : Obligations.DecodeOfEncodeIsTheCommand := by
  intro i h
  rw [decode, encode, Fields.ofWord_toWord]
  exact decode_fields h

/-! ## From a word to its command and back -/

theorem initField_of_reserved_clear (a : BitVec 8) (h : a &&& 0xFE = 0) : (BitVec.ofBool (a.getLsbD 0)).setWidth 8 = a := by
  revert a
  decide

theorem modeField_of_reserved_clear (a : BitVec 8) (h : a &&& 0xFC = 0) : (a.extractLsb' 0 2).setWidth 8 = a := by
  revert a
  decide

theorem ovrField_of_reserved_clear (a : BitVec 8) (h : a &&& 0xFE = 0) : a = 0 ∨ a = 1 := by
  revert a
  decide

theorem scsField_of_reserved_clear (a : BitVec 8) (h : a &&& 0xE0 = 0) :
    (BitVec.ofBool (a.getLsbD 4)).setWidth 8 <<< 4 ||| (a.extractLsb' 2 2).setWidth 8 <<< 2 |||
      BitVec.ofNat 8 (a.extractLsb' 0 2).toNat = a := by
  revert a
  decide

theorem ofBool_decide_eq_one (rs : BitVec 1) : BitVec.ofBool (decide (rs = 1)) = rs := by
  revert rs
  decide

theorem eq_ofNat_of_toNat {opc : BitVec 8} {n : Nat} (h : opc.toNat = n) : opc = BitVec.ofNat 8 n := by
  rw [← h, BitVec.ofNat_toNat, BitVec.setWidth_eq]

section Formats

variable {opc : BitVec 8} {addr : DevAddr} {rs : BitVec 1} {a b : BitVec 8} {w : BitVec 32} {i : Instr}

theorem fields_of_decodeInit (h : Fields.decodeInit ⟨0x01, addr, rs, a, b, w⟩ = .ok i) :
    i.fields = ⟨0x01, addr, rs, a, b, w⟩ := by
  unfold Fields.decodeInit at h
  split_ifs at h with hclear
  obtain ⟨rfl, rfl, ha, rfl, rfl⟩ := hclear
  cases h
  simp only [Instr.fields, initField_of_reserved_clear a ha]

theorem fields_of_decodeZ {j : Instr} (hj : j.fields = ⟨opc, 0, 0, 0, 0, 0⟩)
    (h : Fields.decodeZ ⟨opc, addr, rs, a, b, w⟩ j = .ok i) : i.fields = ⟨opc, addr, rs, a, b, w⟩ := by
  unfold Fields.decodeZ at h
  split_ifs at h with hclear
  obtain ⟨rfl, rfl, rfl, rfl, rfl⟩ := hclear
  cases h
  exact hj

theorem fields_of_decodeD {j : DevAddr → Instr} (hj : ∀ addr, (j addr).fields = ⟨opc, addr, 0, 0, 0, 0⟩)
    (h : Fields.decodeD ⟨opc, addr, rs, a, b, w⟩ j = .ok i) : i.fields = ⟨opc, addr, rs, a, b, w⟩ := by
  unfold Fields.decodeD at h
  split_ifs at h with hclear
  obtain ⟨rfl, rfl, rfl, rfl⟩ := hclear
  cases h
  exact hj addr

theorem fields_of_decodeM {j : DevAddr → Mode → Band → Band → Instr}
    (hj : ∀ addr mode lo hi, (j addr mode lo hi).fields = ⟨opc, addr, 0, mode.code.setWidth 8, 0, bandWord lo hi⟩)
    (h : Fields.decodeM ⟨opc, addr, rs, a, b, w⟩ j = .ok i) : i.fields = ⟨opc, addr, rs, a, b, w⟩ := by
  unfold Fields.decodeM at h
  split_ifs at h with hclear
  obtain ⟨rfl, ha, rfl⟩ := hclear
  cases h
  simp only [hj, Mode.code_ofCode, modeField_of_reserved_clear a ha, Config.BANDW, bandWord_halves]

theorem fields_of_decodeWrs (h : Fields.decodeWrs ⟨0x03, addr, rs, a, b, w⟩ = .ok i) :
    i.fields = ⟨0x03, addr, rs, a, b, w⟩ := by
  unfold Fields.decodeWrs at h
  split_ifs at h with hb hlen hunused
  cases h
  have hle : a.toNat ≤ 4 := by
    simp only [Config.MAXWR] at hlen
    omega
  have hlength : (payloadOf a.toNat w).length = a.toNat := by simp [payloadOf, hle]
  simp only [ne_eq, not_not] at hb hunused
  simp only [Instr.fields, hb, hlength, payloadWord_payloadOf a.toNat w hle hunused, ofBool_decide_eq_one,
    BitVec.ofNat_toNat, BitVec.setWidth_eq]

theorem fields_of_decodeRds (h : Fields.decodeRds ⟨0x04, addr, rs, a, b, w⟩ = .ok i) :
    i.fields = ⟨0x04, addr, rs, a, b, w⟩ := by
  unfold Fields.decodeRds at h
  split_ifs at h with hclear hlen
  simp only [ne_eq, not_or, not_not] at hclear
  obtain ⟨rfl, rfl⟩ := hclear
  cases h
  simp only [Instr.fields, ofBool_decide_eq_one, BitVec.ofNat_toNat, BitVec.setWidth_eq]

theorem fields_of_decodeRrd (h : Fields.decodeRrd ⟨0x05, addr, rs, a, b, w⟩ = .ok i) :
    i.fields = ⟨0x05, addr, rs, a, b, w⟩ := by
  unfold Fields.decodeRrd at h
  split_ifs at h with hclear hlen
  simp only [ne_eq, not_or, not_not] at hclear
  obtain ⟨rfl, rfl⟩ := hclear
  cases h
  simp only [Instr.fields, BitVec.ofNat_toNat, BitVec.setWidth_eq]

theorem fields_of_decodeRwr (h : Fields.decodeRwr ⟨0x06, addr, rs, a, b, w⟩ = .ok i) :
    i.fields = ⟨0x06, addr, rs, a, b, w⟩ := by
  unfold Fields.decodeRwr at h
  split_ifs at h with hclear
  obtain ⟨rfl, rfl, hw⟩ := hclear
  cases h
  simp only [Instr.fields, setWidth_extract_byte w hw]

theorem fields_of_decodeRdp (h : Fields.decodeRdp ⟨0x0D, addr, rs, a, b, w⟩ = .ok i) :
    i.fields = ⟨0x0D, addr, rs, a, b, w⟩ := by
  unfold Fields.decodeRdp at h
  split_ifs at h with hclear hone hovr
  all_goals
    simp only [ne_eq, not_or, not_not] at hclear
    obtain ⟨rfl, ha, rfl, hw⟩ := hclear
    cases h
    have hbyte := setWidth_extract_byte w hw
    dsimp only at hone
  · simp only [Instr.fields, hbyte, hone]
  · have hzero : a = 0 := (ovrField_of_reserved_clear a ha).resolve_right hone
    have hwzero : w = 0 := by
      rw [← hbyte, not_not.mp hovr]
      rfl
    simp only [Instr.fields, hzero, hwzero]

theorem fields_of_decodeScs (h : Fields.decodeScs ⟨0x0E, addr, rs, a, b, w⟩ = .ok i) :
    i.fields = ⟨0x0E, addr, rs, a, b, w⟩ := by
  unfold Fields.decodeScs at h
  split_ifs at h with hclear
  split at h
  · cases h
  · next size hsize =>
    split_ifs at h
    simp only [ne_eq, not_or, not_not] at hclear
    obtain ⟨rfl, rfl, ha, rfl⟩ := hclear
    cases h
    simp only [Instr.fields, ScsSize.code_of_ofCode hsize]
    exact congrArg (Fields.mk 0x0E 0 0 · 0 w) (scsField_of_reserved_clear a ha)

end Formats

/-- R50 to R58: the fields of a command that decodes are the fields it is written with. -/
theorem fields_of_decode {f : Fields} {i : Instr} (h : f.decode = .ok i) : i.fields = f := by
  obtain ⟨opc, addr, rs, a, b, w⟩ := f
  unfold Fields.decode at h
  split at h
  case h_16 => cases h
  all_goals
    rename_i hopc
    obtain rfl := eq_ofNat_of_toNat hopc
  case h_1 => exact fields_of_decodeInit h
  case h_2 => exact fields_of_decodeZ rfl h
  case h_3 => exact fields_of_decodeWrs h
  case h_4 => exact fields_of_decodeRds h
  case h_5 => exact fields_of_decodeRrd h
  case h_6 => exact fields_of_decodeRwr h
  case h_7 | h_8 | h_9 => exact fields_of_decodeM (fun _ _ _ _ => rfl) h
  case h_10 | h_11 | h_12 => exact fields_of_decodeD (fun _ => rfl) h
  case h_13 => exact fields_of_decodeRdp h
  case h_14 => exact fields_of_decodeScs h
  case h_15 => exact fields_of_decodeZ rfl h

/-- Settles O2: a word that decodes is legal, and its fields are the ones its command is written with. -/
theorem encodeOfDecodeIsTheWord : Obligations.EncodeOfDecodeIsTheWord := by
  intro c i h
  refine ⟨decode_wf h, ?_⟩
  rw [encode, fields_of_decode h, Fields.toWord_ofWord]

/-! ## Worked encodings -/

/-- Settles O4: each word is taken apart and decoded by evaluation. -/
theorem workedEncodingsDecode : Obligations.WorkedEncodingsDecode := by
  unfold Obligations.WorkedEncodingsDecode
  and_intros <;> rfl

end Sys2Proof.Proofs
end

section
/-! PROOFS. The sequencer: where a micro-step and a step leave `SEQ`, the sequencer invariant, and when a step stops
(spec/10_state.md rules R14, R15; spec/40_transport.md rules R70, R81; spec/70_reset_and_hazards.md rule R171). -/

namespace Sys2Proof.Proofs

open Sys2Proof Sys2Proof.Machine

/-! ## Where a micro-step leaves `SEQ` -/

theorem microProgram_index_lt_two {i : Instr} {k : Nat} {op : MicroOp} (h : (microProgram Config.params i)[k]? = some op) :
    k < 2 :=
  index_lt_two (microProgram_length i) h

/-- R81: no program has a micro-op at index 2, so the micro-step after a micro-op has an index. -/
theorem nextIndex_val_of_op {i : Instr} {k : Fin 3} {op : MicroOp}
    (h : (microProgram Config.params i)[k.val]? = some op) : (nextIndex k).val = k.val + 1 :=
  nextIndex_val k (microProgram_index_lt_two h)

/-- Settles O16: the six things a micro-step can do, each with its effect on `SEQ`. -/
theorem sequencerAdvancesOneMicroStep : Obligations.SequencerAdvancesOneMicroStep := by
  intro i resp s t h
  obtain ⟨k, addr, bytes, rs, hseq, -, rfl⟩ | ⟨k, addr, n, rs, hseq, hop, -, rfl⟩ | ⟨k, addr, n, rs, hseq, -, -, rfl⟩ |
    ⟨k, hseq, hk, rfl⟩ | ⟨k, addr, bytes, rs, e, rest, hseq, hop, -, rfl⟩ | ⟨k, addr, n, rs, d, rest, hseq, hop, -, rfl⟩ :=
    microStep_next_cases h
  · exact .inl ⟨k, hseq, .inl rfl⟩
  · exact .inr (.inl ⟨k, nextIndex k, .inl hseq, nextIndex_val_of_op hop, rfl⟩)
  · exact .inl ⟨k, hseq, .inr rfl⟩
  · exact .inr (.inr ⟨k, hseq, hk, rfl⟩)
  · exact .inr (.inl ⟨k, nextIndex k, .inr (.inl hseq), nextIndex_val_of_op hop, rfl⟩)
  · exact .inr (.inl ⟨k, nextIndex k, .inr (.inr hseq), nextIndex_val_of_op hop, rfl⟩)

/-! ## Where a step leaves `SEQ` -/

/-- R81: a request without an answer is the write at micro-step 0 or the read at micro-step 0 or 1. -/
theorem seq_of_silent {i : Instr} {resp : State → State} {s : State}
    (h : microStep (microProgram Config.params i) resp s = .fault .busSilent) :
    s.seq = .waitW 0 ∨ s.seq = .waitR 0 ∨ s.seq = .waitR 1 := by
  obtain ⟨k, addr, bytes, rs, hseq, hop, -⟩ | ⟨k, addr, n, rs, hseq, hop, -⟩ := microStep_silent_iff.mp h
  · obtain rfl : k = 0 := Fin.ext (txw_index hop)
    exact .inl hseq
  · have hlt := microProgram_index_lt_two hop
    obtain rfl | rfl : k = 0 ∨ k = 1 := by omega
    · exact .inr (.inl hseq)
    · exact .inr (.inr hseq)

/-- The execution of a command, legal or not, ends at `IDLE` or at a request without an answer. -/
theorem exec_seq {i : Instr} {s t : State} (h : exec i s = .next t) :
    t.seq = .idle ∨ t.seq = .waitW 0 ∨ t.seq = .waitR 0 ∨ t.seq = .waitR 1 := by
  obtain ⟨resp, hexec, hresp⟩ := exec_eq_runCommand i
  rw [hexec] at h
  cases hwf : i.wf with
  | false =>
    cases (runCommand_of_not_wf hwf resp s).symm.trans h
    exact .inl rfl
  | true =>
    rw [runCommand_of_wf hwf] at h
    exact (runProgram_end (microProgram_length i) (fun a => (hresp a).1) h).imp_right seq_of_silent

/-- Settles O52: a step executes a command, or leaves the block idle. -/
theorem stepLeavesAReachableSequencerState : Obligations.StepLeavesAReachableSequencerState := by
  intro s t h
  obtain ⟨hidle, -, rfl⟩ | ⟨_, _, _, -, -, -, hexec⟩ | ⟨_, _, _, -, -, -, rfl⟩ | ⟨_, _, -, -, -, hexec⟩ |
    ⟨_, _, -, -, -, rfl⟩ := step_cases h
  · exact .inl hidle
  · exact exec_seq hexec
  · exact .inl rfl
  · exact exec_seq hexec
  · exact .inl rfl

/-! ## The positions of a micro-program -/

/-- `BUF` is empty when a micro-op is next: the only read of a program is its last micro-op. -/
theorem bufLengthAt_of_op {i : Instr} {k : Nat} {op : MicroOp} (hop : (microProgram Config.params i)[k]? = some op) :
    bufLengthAt (microProgram Config.params i) k = 0 := by
  cases k with
  | zero => rfl
  | succ k =>
    have hlt := (List.getElem?_eq_some_iff.mp hop).1
    rw [bufLengthAt]
    split
    · next hread =>
      have := txr_index hread
      omega
    · rfl
    · rfl

/-- After a read `BUF` holds the bytes it asked for. -/
theorem bufLengthAt_succ_txr {ops : List MicroOp} {k : Nat} {addr : DevAddr} {n : Nat} {rs : Bool}
    (hop : ops[k]? = some (.txr addr n rs)) : bufLengthAt ops (k + 1) = n := by
  simp [bufLengthAt, hop]

theorem bufLengthAt_succ_txw {ops : List MicroOp} {k : Nat} {addr : DevAddr} {bytes : List Byte} {rs : Bool}
    (hop : ops[k]? = some (.txw addr bytes rs)) : bufLengthAt ops (k + 1) = 0 := by
  simp [bufLengthAt, hop]

/-- A legal command reads no more bytes than an answer carries. -/
theorem txr_length_le {i : Instr} {k : Nat} {addr : DevAddr} {n : Nat} {rs : Bool} (hwf : i.wf = true)
    (hop : (microProgram Config.params i)[k]? = some (.txr addr n rs)) : n ≤ Config.MAXRD := by
  have hmem := List.mem_of_getElem? hop
  obtain hs | ⟨_, _, _, hs⟩ | ⟨_, _, _, hs, hle⟩ | ⟨_, _, _, hs, hle⟩ := microProgram_shape i <;> rw [hs] at hmem
  · simp at hmem
  · simp at hmem
  · obtain ⟨-, rfl, -⟩ := by simpa using hmem
    exact hle hwf
  · obtain ⟨-, rfl, -⟩ := by simpa [regReadOps] using hmem
    exact hle hwf

theorem atPosition_run {s : State} {ops : List MicroOp} {k : Fin 3} (hseq : s.seq = .run k) :
    s.atPosition ops = true ↔ k.val ≤ ops.length ∧ s.buf.length = bufLengthAt ops k.val := by
  simp [State.atPosition, hseq]

theorem atPosition_waitW {s : State} {ops : List MicroOp} {k : Fin 3} (hseq : s.seq = .waitW k) :
    s.atPosition ops = true ↔ (∃ addr bytes rs, ops[k.val]? = some (.txw addr bytes rs)) ∧ s.buf = [] := by
  simp [State.atPosition, hseq, isTxw_iff]

theorem atPosition_waitR {s : State} {ops : List MicroOp} {k : Fin 3} (hseq : s.seq = .waitR k) :
    s.atPosition ops = true ↔ (∃ addr n rs, ops[k.val]? = some (.txr addr n rs)) ∧ s.buf = [] := by
  simp [State.atPosition, hseq, isTxr_iff]

theorem not_atPosition_idle {s : State} {ops : List MicroOp} (hseq : s.seq = .idle) : s.atPosition ops = false := by
  simp [State.atPosition, hseq]

/-! ## The sequencer invariant, while a command runs -/

/-- The command is over and the temporaries are empty, or `CMDR` still holds `c` and `SEQ` and `BUF` stand at a position of
`ops`. -/
def OverOrAtPosition (c : Command) (ops : List MicroOp) (s : State) : Prop :=
  (s.seq = .idle ∧ s.cmdr = none ∧ s.buf = []) ∨ (s.cmdr = some c ∧ s.atPosition ops = true)

/-- A final step ends the command and empties the temporaries. -/
def EndsCommand (resp : State → State) : Prop :=
  ∀ a, (resp a).seq = .idle ∧ (resp a).cmdr = none ∧ (resp a).buf = []

theorem OverOrAtPosition.atPosition {c : Command} {ops : List MicroOp} {s : State} (h : OverOrAtPosition c ops s)
    (hbusy : s.seq ≠ .idle) : s.cmdr = some c ∧ s.atPosition ops = true :=
  h.resolve_left fun hover => hbusy hover.1

/-- A micro-step of a legal command goes from a position to a position, or ends the command. -/
theorem microStep_keeps_position {i : Instr} {resp : State → State} {c : Command} {a b : State} (hwf : i.wf = true)
    (hresp : EndsCommand resp) (ha : OverOrAtPosition c (microProgram Config.params i) a)
    (h : microStep (microProgram Config.params i) resp a = .next b) :
    OverOrAtPosition c (microProgram Config.params i) b := by
  obtain ⟨k, addr, bytes, rs, hseq, hop, rfl⟩ | ⟨k, addr, n, rs, hseq, hop, -, rfl⟩ |
    ⟨k, addr, n, rs, hseq, hop, -, rfl⟩ | ⟨k, -, -, rfl⟩ | ⟨k, addr, bytes, rs, e, rest, hseq, hop, -, rfl⟩ |
    ⟨k, addr, n, rs, d, rest, hseq, hop, -, rfl⟩ := microStep_next_cases h
  case inr.inr.inr.inl => exact .inl (hresp a)
  all_goals
    obtain ⟨hcmdr, hpos⟩ := ha.atPosition (by simp [hseq])
    have hlt := (List.getElem?_eq_some_iff.mp hop).1
    have hnext := nextIndex_val_of_op hop
  · obtain ⟨-, hbuf⟩ := (atPosition_run hseq).mp hpos
    rw [bufLengthAt_of_op hop, List.length_eq_zero_iff] at hbuf
    exact .inr ⟨hcmdr, (atPosition_waitW rfl).mpr ⟨⟨addr, bytes, rs, hop⟩, hbuf⟩⟩
  · refine .inr ⟨hcmdr, (atPosition_run rfl).mpr ⟨by omega, ?_⟩⟩
    rw [hnext, bufLengthAt_succ_txr hop, skipRead_eq, List.length_replicate]
  · obtain ⟨-, hbuf⟩ := (atPosition_run hseq).mp hpos
    rw [bufLengthAt_of_op hop, List.length_eq_zero_iff] at hbuf
    exact .inr ⟨hcmdr, (atPosition_waitR rfl).mpr ⟨⟨addr, n, rs, hop⟩, hbuf⟩⟩
  · obtain ⟨-, hbuf⟩ := (atPosition_waitW hseq).mp hpos
    rw [takeWrite_eq]
    refine .inr ⟨hcmdr, (atPosition_run rfl).mpr ⟨by omega, ?_⟩⟩
    rw [hnext, bufLengthAt_succ_txw hop, hbuf, List.length_nil]
  · refine .inr ⟨hcmdr, (atPosition_run rfl).mpr ⟨by omega, ?_⟩⟩
    rw [hnext, bufLengthAt_succ_txr hop, takeRead_eq, answerBytes_length (txr_length_le hwf hop)]

/-- Every command is the run of its micro-program with a final step that ends the command. -/
theorem exec_eq_runCommand_ends (i : Instr) :
    ∃ resp : State → State, (∀ s, exec i s = runCommand i resp s) ∧ EndsCommand resp := by
  obtain ⟨resp, hexec, hresp⟩ := exec_eq_runCommand i
  refine ⟨resp, hexec, fun a => ?_⟩
  obtain ⟨hidle, hcmdr, hbuf, -⟩ := hresp a
  exact ⟨hidle, hcmdr, hbuf⟩

theorem ne_idle_of_atPosition {s : State} {ops : List MicroOp} (hpos : s.atPosition ops = true) : s.seq ≠ .idle := by
  intro hidle
  simp [not_atPosition_idle hidle] at hpos

/-- The execution of a legal command goes from a position of its micro-program to a position, or ends the command. -/
theorem exec_keeps_position {i : Instr} {c : Command} {s t : State} (hwf : i.wf = true) (hcmdr : s.cmdr = some c)
    (hpos : s.atPosition (microProgram Config.params i) = true) (h : exec i s = .next t) :
    OverOrAtPosition c (microProgram Config.params i) t := by
  obtain ⟨resp, hexec, hresp⟩ := exec_eq_runCommand_ends i
  rw [hexec, runCommand_of_wf hwf] at h
  refine runProgram_induct _ (fun _ _ => microStep_keeps_position hwf hresp) ?_ h
  rw [begun_of_ne_idle (ne_idle_of_atPosition hpos)]
  exact .inr ⟨hcmdr, hpos⟩

/-! ## The sequencer invariant, over a step -/

theorem inv_idle_iff {s : State} (hseq : s.seq = .idle) : s.inv = true ↔ s.cmdr = none ∧ s.buf = [] := by
  simp [State.inv, hseq]

theorem inv_of_atPosition {s : State} {c : Command} {i : Instr} (hdecode : decode c = .ok i) (hcmdr : s.cmdr = some c)
    (hpos : s.atPosition (microProgram Config.params i) = true) : s.inv = true := by
  unfold State.inv
  split
  · next hidle => exact absurd hidle (ne_idle_of_atPosition hpos)
  · simpa only [hcmdr, hdecode] using hpos

theorem OverOrAtPosition.inv {s : State} {c : Command} {i : Instr} (hdecode : decode c = .ok i)
    (h : OverOrAtPosition c (microProgram Config.params i) s) : s.inv = true := by
  obtain ⟨hidle, htemps⟩ | ⟨hcmdr, hpos⟩ := h
  · exact (inv_idle_iff hidle).mpr htemps
  · exact inv_of_atPosition hdecode hcmdr hpos

theorem inv_refuseIllegal (s : State) : s.refuseIllegal.inv = true := (inv_idle_iff rfl).mpr ⟨rfl, rfl⟩

/-- Acceptance puts an idle block that meets the invariant at the first position of any program. -/
theorem accept_atPosition {s : State} (hinv : s.inv = true) (hidle : s.seq = .idle) (c : Command) (rest : List Command)
    (ops : List MicroOp) : (s.accept c rest).atPosition ops = true := by
  obtain ⟨-, hbuf⟩ := (inv_idle_iff hidle).mp hinv
  exact (atPosition_run (k := 0) rfl).mpr ⟨Nat.zero_le _, congrArg List.length hbuf⟩

/-- A busy block that meets the invariant with a legal word latched is at a position of its micro-program. -/
theorem atPosition_of_inv {s : State} {c : Command} {i : Instr} (hinv : s.inv = true) (hbusy : s.seq ≠ .idle)
    (hcmdr : s.cmdr = some c) (hdecode : decode c = .ok i) : s.atPosition (microProgram Config.params i) = true := by
  obtain ⟨c', hcmdr', hlatched⟩ := inv_busy hinv hbusy
  obtain rfl : c' = c := Option.some.inj (hcmdr'.symm.trans hcmdr)
  obtain ⟨j, hj, hpos⟩ | ⟨e, he, -, -⟩ := hlatched
  · obtain rfl : j = i := Except.ok.inj (hj.symm.trans hdecode)
    exact hpos
  · cases he.symm.trans hdecode

/-- Settles O53: a step runs a legal command from a position of its micro-program, or leaves the block idle with empty
temporaries. -/
theorem stepKeepsSequencerInvariant : Obligations.StepKeepsSequencerInvariant := by
  intro s t hinv h
  obtain ⟨-, -, rfl⟩ | ⟨c, rest, i, hidle, -, hdecode, hexec⟩ | ⟨_, _, _, -, -, -, rfl⟩ |
    ⟨c, i, hbusy, hcmdr, hdecode, hexec⟩ | ⟨_, _, -, -, -, rfl⟩ := step_cases h
  · exact hinv
  · exact (exec_keeps_position (decode_wf hdecode) rfl (accept_atPosition hinv hidle c rest _) hexec).inv hdecode
  · exact inv_refuseIllegal _
  · exact (exec_keeps_position (decode_wf hdecode) hcmdr (atPosition_of_inv hinv hbusy hcmdr hdecode) hexec).inv hdecode
  · exact inv_refuseIllegal _

/-- Settles O54: reset leaves `SEQ` at `IDLE` and both temporaries empty. -/
theorem resetMeetsSequencerInvariant : Obligations.ResetMeetsSequencerInvariant :=
  (inv_idle_iff rfl).mpr ⟨rfl, rfl⟩

/-! ## When a step stops -/

/-- A bus request has been sent and no answer to it is there. -/
def Unanswered (s : State) : Prop :=
  ((∃ k, s.seq = .waitW k) ∧ s.wrAns = []) ∨ ((∃ k, s.seq = .waitR k) ∧ s.rdAns = [])

/-- At a position of a program there is a micro-step to take, unless the request there is unanswered. -/
theorem microStep_of_atPosition {ops : List MicroOp} (resp : State → State) {s : State} (hpos : s.atPosition ops = true) :
    (∃ t, microStep ops resp s = .next t) ∨ (Unanswered s ∧ microStep ops resp s = .fault .busSilent) := by
  cases hseq : s.seq with
  | idle => simp [not_atPosition_idle hseq] at hpos
  | run k =>
    obtain ⟨hk, -⟩ := (atPosition_run hseq).mp hpos
    cases hop : ops[k.val]? with
    | none =>
      have hend : k.val = ops.length := le_antisymm hk (List.getElem?_eq_none_iff.mp hop)
      exact .inl ⟨resp s, by simp only [microStep, hseq, hop, if_pos hend]⟩
    | some op =>
      cases op with
      | txw addr bytes rs => exact .inl ⟨_, microStep_txw_sends hop hseq⟩
      | txr addr n rs => exact .inl (by simp only [microStep, hseq, hop]; exact ⟨_, rfl⟩)
  | waitW k =>
    obtain ⟨⟨addr, bytes, rs, hop⟩, -⟩ := (atPosition_waitW hseq).mp hpos
    cases hans : s.wrAns with
    | nil => exact .inr ⟨.inl ⟨⟨k, hseq⟩, hans⟩, microStep_silent_iff.mpr (.inl ⟨k, addr, bytes, rs, hseq, hop, hans⟩)⟩
    | cons e ws => exact .inl ⟨_, microStep_txw_answered hop hseq hans⟩
  | waitR k =>
    obtain ⟨⟨addr, n, rs, hop⟩, -⟩ := (atPosition_waitR hseq).mp hpos
    cases hans : s.rdAns with
    | nil => exact .inr ⟨.inr ⟨⟨k, hseq⟩, hans⟩, microStep_silent_iff.mpr (.inr ⟨k, addr, n, rs, hseq, hop, hans⟩)⟩
    | cons d ds => exact .inl ⟨_, microStep_txr_answered hop hseq hans⟩

/-- Settling from a position of a legal command, or from its end, never stops. -/
theorem settle_next {i : Instr} {resp : State → State} {c : Command} (hwf : i.wf = true) (hresp : EndsCommand resp) :
    ∀ (fuel : Nat) (s : State), OverOrAtPosition c (microProgram Config.params i) s →
      ∃ t, settle (microProgram Config.params i) resp fuel s = .next t := by
  intro fuel
  induction fuel with
  | zero => exact fun s _ => ⟨s, rfl⟩
  | succ fuel ih =>
    intro s hs
    by_cases hidle : s.seq = .idle
    · exact ⟨s, by rw [settle, if_pos hidle]⟩
    obtain ⟨-, hpos⟩ := hs.atPosition hidle
    obtain ⟨s', hstep⟩ | ⟨-, hsilent⟩ := microStep_of_atPosition resp hpos
    · simp only [settle, if_neg hidle, hstep]
      exact ih s' (microStep_keeps_position hwf hresp hs hstep)
    · exact ⟨s, by simp only [settle, if_neg hidle, hsilent]⟩

/-- The execution of a legal command from a position of its micro-program goes on, unless the request there is unanswered. -/
theorem exec_next_of_answered {i : Instr} {c : Command} {s : State} (hwf : i.wf = true) (hcmdr : s.cmdr = some c)
    (hpos : s.atPosition (microProgram Config.params i) = true) (hans : ¬ Unanswered s) : ∃ t, exec i s = .next t := by
  obtain ⟨resp, hexec, hresp⟩ := exec_eq_runCommand_ends i
  obtain ⟨s', hstep⟩ | ⟨hsilent, -⟩ := microStep_of_atPosition resp hpos
  · rw [hexec, runCommand_of_wf hwf, runProgram, begun_of_ne_idle (ne_idle_of_atPosition hpos)]
    simp only [hstep]
    exact settle_next hwf hresp 4 s' (microStep_keeps_position hwf hresp (.inr ⟨hcmdr, hpos⟩) hstep)
  · exact absurd hsilent hans

/-- R70: at `IDLE` a step executes the command that the presented word spells, after its acceptance. -/
theorem step_of_accept {s : State} {c : Command} {rest : List Command} {i : Instr} (hidle : s.seq = .idle)
    (hin : s.cmdIn = c :: rest) (hdecode : decode c = .ok i) : step s = exec i (s.accept c rest) := by
  simp [step, hidle, hin, runLatched, accept_eq, hdecode]

theorem step_of_no_word {s : State} (hidle : s.seq = .idle) (hin : s.cmdIn = []) : step s = .next s := by
  simp [step, hidle, hin]

/-- From a state of the sequencer invariant with no request unanswered, a step goes on. -/
theorem step_next_of_answered {s : State} (hinv : s.inv = true) (hans : ¬ Unanswered s) : ∃ t, step s = .next t := by
  by_cases hidle : s.seq = .idle
  · cases hin : s.cmdIn with
    | nil => exact ⟨s, step_of_no_word hidle hin⟩
    | cons c rest =>
      cases hdecode : decode c with
      | error e => exact ⟨_, step_of_decode_error hidle hin hdecode⟩
      | ok i =>
        rw [step_of_accept hidle hin hdecode]
        exact exec_next_of_answered (decode_wf hdecode) rfl (accept_atPosition hinv hidle c rest _)
          (by simp [Unanswered, accept_eq])
  · obtain ⟨c, hcmdr, ⟨i, hdecode, hpos⟩ | ⟨e, hdecode, hrun, -⟩⟩ := inv_busy hinv hidle
    · rw [step_of_busy hidle hcmdr hdecode]
      exact exec_next_of_answered (decode_wf hdecode) hcmdr hpos hans
    · exact ⟨s.refuseIllegal, by simp only [step, hrun, runLatched, hcmdr, hdecode, if_true]⟩

/-! ## No step is refused -/

theorem microStep_ne_refused (ops : List MicroOp) (resp : State → State) (s : State) (r : Refusal) :
    microStep ops resp s ≠ .refused r := by
  unfold microStep
  split
  · simp
  · split
    · simp
    · simp
    · split_ifs <;> simp
  · split <;> simp
  · split <;> simp

theorem settle_ne_refused (ops : List MicroOp) (resp : State → State) (r : Refusal) :
    ∀ (fuel : Nat) (s : State), settle ops resp fuel s ≠ .refused r := by
  intro fuel
  induction fuel with
  | zero => simp [settle]
  | succ fuel ih =>
    intro s
    unfold settle
    split_ifs
    · simp
    · split
      · exact ih _
      · simp
      · exact microStep_ne_refused ops resp s r

theorem exec_ne_refused (i : Instr) (s : State) (r : Refusal) : exec i s ≠ .refused r := by
  obtain ⟨resp, hexec, -⟩ := exec_eq_runCommand i
  rw [hexec, runCommand]
  split_ifs
  · unfold runProgram
    split
    · exact settle_ne_refused _ resp r 4 _
    · exact microStep_ne_refused _ resp _ r
  · simp

theorem step_ne_refused (s : State) (r : Refusal) : step s ≠ .refused r := by
  have hlatched : ∀ s, runLatched s ≠ .refused r := by
    intro s
    unfold runLatched
    split
    · simp
    · split
      · exact exec_ne_refused _ s r
      · split_ifs <;> simp
  unfold step
  split
  · split
    · simp
    · exact hlatched _
  · exact hlatched s

/-- Settles O10: an unanswered request is stuck, and from every other state of the invariant a step goes on. -/
theorem stepStopsOnlyInAHang : Obligations.StepStopsOnlyInAHang := by
  refine ⟨fun s f hinv => ⟨fun hfault => ?stops, fun ⟨hf, hans⟩ => hf ▸ step_of_unanswered hinv hans⟩, step_ne_refused⟩
  by_cases hans : Unanswered s
  · cases hfault.symm.trans (step_of_unanswered hinv hans)
    exact ⟨rfl, hans⟩
  · obtain ⟨t, hnext⟩ := step_next_of_answered hinv hans
    cases hfault.symm.trans hnext

end Sys2Proof.Proofs
end

section
/-! PROOFS. The trace invariant: every event of a run is one the observer admits, and the observer keeps up with `ERR`, `CHK`
and `SEQ` (spec/40_transport.md rules R71, R72, R80 to R82). -/

namespace Sys2Proof.Proofs

open Sys2Proof Sys2Proof.Machine

/-! ## What the observer sees -/

@[simp] theorem seeAll_nil (o : Observer) : o.seeAll [] = some o := rfl

theorem seeAll_cons (o : Observer) (ev : Event) (evs : List Event) :
    o.seeAll (ev :: evs) = (o.see ev).bind (·.seeAll evs) := by
  rw [Observer.seeAll]
  cases o.see ev <;> rfl

@[simp] theorem seeAll_singleton (o : Observer) (ev : Event) : o.seeAll [ev] = o.see ev := by
  rw [seeAll_cons]
  cases o.see ev <;> rfl

section Events

variable {o : Observer} {c : Command} {addr : DevAddr} {rs : Bool} {ops : List MicroOp}

theorem see_accept (h : o.phase = .idle) : o.see (.accept c) = some { o with phase := .doing c (wordOps c) } := by
  simp only [Observer.see, h]

theorem see_busWriteReq {bytes : List Byte} (h : o.phase = .doing c (.txw addr bytes rs :: ops)) :
    o.see (.busWriteReq addr bytes rs) = some { o with phase := .writing c addr ops } := by
  simp [Observer.see, h]

/-- The report that R71 asks for is the one the observer is owed, and it is owed no other. -/
theorem seeAll_busWriteAns {s : State} {e : ErrCode} (h : o.phase = .writing c addr ops) (herr : o.err = s.err)
    (hchk : o.chk = s.chk) :
    o.seeAll (.busWriteAns e :: s.reportEvents addr e) = some { o with err := e, phase := .doing c ops } := by
  by_cases hdue : s.chk = true ∧ s.err = 0 ∧ e ≠ 0
  · rw [State.reportEvents, if_pos hdue, seeAll_cons]
    simp only [Observer.see, h, herr, hchk, if_pos hdue, Option.bind_some, seeAll_singleton, if_true]
  · rw [State.reportEvents, if_neg hdue, seeAll_singleton]
    simp only [Observer.see, h, herr, hchk, if_neg hdue]

theorem see_busReadReq {n : Nat} (h : o.phase = .doing c (.txr addr n rs :: ops)) (hfree : o.blocked = false) :
    o.see (.busReadReq addr n rs) = some { o with phase := .reading c n ops } := by
  simp [Observer.see, h, hfree]

theorem see_busReadAns {n : Nat} {bytes : List Byte} (h : o.phase = .reading c n ops) (hlen : bytes.length = n) :
    o.see (.busReadAns bytes) = some { o with phase := .doing c ops } := by
  simp [Observer.see, h, hlen]

theorem see_respond {stat : BitVec 1} {res : Result} (h : o.phase = .doing c ops) (hmay : o.mayRespond ops = true)
    (hstat : statusFits c stat res = true) : o.see (.respond stat res) = some (o.afterRespond c) := by
  simp only [Observer.see, h, hmay, hstat, and_self, if_true]

end Events

theorem statusFits_of_decode {c : Command} {i : Instr} (h : decode c = .ok i) (res : Result) :
    statusFits c 0 res = true := by
  simp [statusFits, wordLegal, h]

theorem statusFits_of_decode_error {c : Command} {e : Illegal} (h : decode c = .error e) : statusFits c 1 0 = true := by
  simp [statusFits, wordLegal, h]

theorem wordOps_of_decode {c : Command} {i : Instr} (h : decode c = .ok i) : wordOps c = microProgram Config.params i := by
  simp only [wordOps, h]

theorem wordOps_of_decode_error {c : Command} {e : Illegal} (h : decode c = .error e) : wordOps c = [] := by
  simp only [wordOps, h]

/-! ## The phase that fits `SEQ` -/

theorem fits_idle {o : Observer} {c : Command} {ops : List MicroOp} : o.fits c ops .idle = true ↔ o.phase = .idle := by
  simp [Observer.fits]

theorem drop_of_op {ops : List MicroOp} {k : Nat} {op : MicroOp} (h : ops[k]? = some op) :
    ops.drop k = op :: ops.drop (k + 1) := by
  obtain ⟨hlt, rfl⟩ := List.getElem?_eq_some_iff.mp h
  exact List.drop_eq_getElem_cons hlt

/-- At `RUN(k)` with a micro-op at `k`, that micro-op is the next the observer expects: no read has been skipped, because a
read is the last micro-op of its program (R81). -/
theorem phase_of_fits_run {o : Observer} {c : Command} {i : Instr} {k : Fin 3} {op : MicroOp}
    (hfits : o.fits c (microProgram Config.params i) (.run k) = true)
    (hop : (microProgram Config.params i)[k.val]? = some op) :
    o.phase = .doing c (op :: (microProgram Config.params i).drop (k.val + 1)) := by
  simp only [Observer.fits, Bool.or_eq_true, Bool.and_eq_true, decide_eq_true_eq, isTxr_iff] at hfits
  obtain hphase | ⟨⟨⟨-, hk⟩, ⟨_, _, _, hread⟩⟩, -⟩ := hfits
  · rw [hphase, drop_of_op hop]
  · have hlast := txr_index hread
    have hlt := (List.getElem?_eq_some_iff.mp hop).1
    omega

/-- At `RUN(k)` past the last micro-op, the observer admits the response: nothing is left, or a read that is skipped (R72). -/
theorem phase_of_fits_end {o : Observer} {c : Command} {ops : List MicroOp} {k : Fin 3}
    (hfits : o.fits c ops (.run k) = true) (hend : k.val = ops.length) :
    ∃ left, o.phase = .doing c left ∧ o.mayRespond left = true := by
  simp only [Observer.fits, Bool.or_eq_true, Bool.and_eq_true, decide_eq_true_eq] at hfits
  obtain hphase | ⟨⟨⟨hblocked, hk⟩, hread⟩, hphase⟩ := hfits
  · exact ⟨_, hphase, by simp [hend, Observer.mayRespond]⟩
  · obtain ⟨addr, n, rs, hop⟩ := isTxr_iff.mp hread
    refine ⟨_, hphase, ?_⟩
    rw [drop_of_op hop, List.drop_of_length_le (by omega)]
    simp [Observer.mayRespond, hblocked, isTxr]

theorem fits_run_of_phase {o : Observer} {c : Command} {ops : List MicroOp} {k : Fin 3}
    (h : o.phase = .doing c (ops.drop k.val)) : o.fits c ops (.run k) = true := by
  simp [Observer.fits, h]

/-- A read that is skipped leaves the observer where it is, one micro-op behind `SEQ`. -/
theorem fits_run_of_skipped {o : Observer} {c : Command} {ops : List MicroOp} {k q : Fin 3} {addr : DevAddr} {n : Nat}
    {rs : Bool} (hblocked : o.blocked = true) (hq : q.val = k.val + 1) (hop : ops[k.val]? = some (.txr addr n rs))
    (hphase : o.phase = .doing c (.txr addr n rs :: ops.drop (k.val + 1))) : o.fits c ops (.run q) = true := by
  simp [Observer.fits, hblocked, hq, hop, isTxr, hphase, drop_of_op hop]

theorem fits_waitW {o : Observer} {c : Command} {ops : List MicroOp} {k : Fin 3} {addr : DevAddr} {bytes : List Byte}
    {rs : Bool} (hop : ops[k.val]? = some (.txw addr bytes rs)) :
    o.fits c ops (.waitW k) = true ↔ o.phase = .writing c addr (ops.drop (k.val + 1)) := by
  simp [Observer.fits, hop]

theorem fits_waitR {o : Observer} {c : Command} {ops : List MicroOp} {k : Fin 3} {addr : DevAddr} {n : Nat}
    {rs : Bool} (hop : ops[k.val]? = some (.txr addr n rs)) :
    o.fits c ops (.waitR k) = true ↔ o.phase = .reading c n (ops.drop (k.val + 1)) := by
  simp [Observer.fits, hop]

/-! ## The observer keeps up -/

/-- After the trace of `s` the observer is `o`, which knows `ERR` and `CHK` and is where `SEQ` is in the program `ops` of the
word `c`. -/
def Follows (c : Command) (ops : List MicroOp) (s : State) (o : Observer) : Prop :=
  Observer.reset.seeAll s.trace = some o ∧ o.err = s.err ∧ o.chk = s.chk ∧ o.fits c ops s.seq = true

/-- The trace is one the observer admits, and the observer follows. -/
def Followed (c : Command) (ops : List MicroOp) (s : State) : Prop := ∃ o, Follows c ops s o

/-- A final step responds with `STAT = 0` and writes `ERR` and `CHK` exactly as the command `i` does (R11, R12, R135). -/
def RespondsAs (i : Instr) (resp : State → State) : Prop :=
  ∀ a, (resp a).seq = .idle ∧ (∃ res, (resp a).trace = a.trace ++ [.respond 0 res]) ∧
    (((∀ check, i ≠ .init check) ∧ (resp a).err = a.err ∧ (resp a).chk = a.chk) ∨
      ∃ check, i = .init check ∧ (resp a).err = 0 ∧ (resp a).chk = check)

theorem Follows.blocked {c : Command} {ops : List MicroOp} {s : State} {o : Observer} (h : Follows c ops s o) :
    o.blocked = s.blocked := by
  obtain ⟨-, herr, hchk, -⟩ := h
  rw [Observer.blocked, State.blocked, herr, hchk]

theorem seeAll_trace_append {o o' : Observer} {trace evs : List Event} (h : Observer.reset.seeAll trace = some o)
    (hnew : o.seeAll evs = some o') : Observer.reset.seeAll (trace ++ evs) = some o' := by
  rw [seeAll_append, h, Option.bind_some, hnew]

/-- Of a legal word other than `INIT` the response leaves what the observer knows of `ERR` and `CHK`. -/
theorem afterRespond_of_not_init {c : Command} {i : Instr} (hdecode : decode c = .ok i) (hi : ∀ check, i ≠ .init check)
    (o : Observer) : o.afterRespond c = { o with phase := .idle } := by
  rw [Observer.afterRespond, hdecode]
  split
  · next check hinit => exact absurd (Except.ok.inj hinit) (hi check)
  · rfl

theorem afterRespond_init {c : Command} {check : Bool} (hdecode : decode c = .ok (.init check)) (o : Observer) :
    o.afterRespond c = { err := 0, chk := check, phase := .idle } := by
  simp only [Observer.afterRespond, hdecode]

/-- The response of a command, seen by an observer that follows past the last micro-op. -/
theorem followed_resp {c : Command} {i : Instr} {resp : State → State} {a : State} {o : Observer} {k : Fin 3}
    (hdecode : decode c = .ok i) (hresp : RespondsAs i resp) (ho : Follows c (microProgram Config.params i) a o)
    (hseq : a.seq = .run k) (hend : k.val = (microProgram Config.params i).length) :
    Followed c (microProgram Config.params i) (resp a) := by
  obtain ⟨htrace, herr, hchk, hfits⟩ := ho
  obtain ⟨hidle, ⟨res, hevent⟩, hwrites⟩ := hresp a
  obtain ⟨left, hphase, hmay⟩ := phase_of_fits_end (hseq ▸ hfits) hend
  have hsee := (seeAll_singleton o _).trans (see_respond hphase hmay (statusFits_of_decode hdecode res))
  refine ⟨o.afterRespond c, by rw [hevent]; exact seeAll_trace_append htrace hsee, ?_⟩
  rw [hidle, fits_idle]
  obtain ⟨hnot, herr', hchk'⟩ | ⟨check, rfl, herr', hchk'⟩ := hwrites
  · rw [afterRespond_of_not_init hdecode hnot, herr', hchk']
    exact ⟨herr, hchk, rfl⟩
  · rw [afterRespond_init hdecode, herr', hchk']
    exact ⟨rfl, rfl, rfl⟩

/-- Every micro-step of a legal command adds events that the observer admits, and the observer follows it. -/
theorem microStep_keeps_followed {c : Command} {i : Instr} {resp : State → State} {a b : State}
    (hdecode : decode c = .ok i) (hresp : RespondsAs i resp) (ha : Followed c (microProgram Config.params i) a)
    (h : microStep (microProgram Config.params i) resp a = .next b) : Followed c (microProgram Config.params i) b := by
  obtain ⟨o, ho⟩ := ha
  have hblocked := ho.blocked
  have ⟨htrace, herr, hchk, hfits⟩ := ho
  obtain ⟨k, addr, bytes, rs, hseq, hop, rfl⟩ | ⟨k, addr, n, rs, hseq, hop, hskip, rfl⟩ |
    ⟨k, addr, n, rs, hseq, hop, hfree, rfl⟩ | ⟨k, hseq, hend, rfl⟩ |
    ⟨k, addr, bytes, rs, e, rest, hseq, hop, hans, rfl⟩ | ⟨k, addr, n, rs, d, rest, hseq, hop, hans, rfl⟩ :=
    microStep_next_cases h
  · have hphase := phase_of_fits_run (hseq ▸ hfits) hop
    have hsee := (seeAll_singleton o _).trans (see_busWriteReq hphase)
    exact ⟨_, seeAll_trace_append htrace hsee, herr, hchk, (fits_waitW hop).mpr rfl⟩
  · have hphase := phase_of_fits_run (hseq ▸ hfits) hop
    exact ⟨o, htrace, herr, hchk, fits_run_of_skipped (hblocked.trans hskip) (nextIndex_val_of_op hop) hop hphase⟩
  · have hphase := phase_of_fits_run (hseq ▸ hfits) hop
    have hsee := (seeAll_singleton o _).trans (see_busReadReq hphase (hblocked.trans hfree))
    exact ⟨_, seeAll_trace_append htrace hsee, herr, hchk, (fits_waitR hop).mpr rfl⟩
  · exact followed_resp hdecode hresp ho hseq hend
  · have hphase := (fits_waitW hop).mp (hseq ▸ hfits)
    have hsee := seeAll_busWriteAns (e := e) hphase herr hchk
    rw [takeWrite_eq]
    exact ⟨_, seeAll_trace_append htrace hsee, rfl, hchk, fits_run_of_phase (by rw [nextIndex_val_of_op hop])⟩
  · have hphase := (fits_waitR hop).mp (hseq ▸ hfits)
    have hlen := answerBytes_length (txr_length_le (decode_wf hdecode) hop) d
    have hsee := (seeAll_singleton o _).trans (see_busReadAns hphase hlen)
    exact ⟨_, seeAll_trace_append htrace hsee, herr, hchk, fits_run_of_phase (by rw [nextIndex_val_of_op hop])⟩

/-- The execution of a busy block's legal command keeps the observer following. -/
theorem exec_keeps_followed {c : Command} {i : Instr} {s t : State} (hdecode : decode c = .ok i) (hbusy : s.seq ≠ .idle)
    (hs : Followed c (microProgram Config.params i) s) (h : exec i s = .next t) :
    Followed c (microProgram Config.params i) t := by
  obtain ⟨resp, hexec, hresp⟩ := exec_eq_runCommand i
  have hfinal : RespondsAs i resp := by
    intro a
    obtain ⟨hidle, -, -, -, -, -, htrace, hwrites, -⟩ := hresp a
    exact ⟨hidle, htrace, hwrites⟩
  rw [hexec, runCommand_of_wf (decode_wf hdecode)] at h
  refine runProgram_induct _ (fun _ _ => microStep_keeps_followed hdecode hfinal) ?_ h
  rwa [begun_of_ne_idle hbusy]

/-! ## The trace invariant, over a step -/

theorem traceInv_iff {s : State} :
    s.traceInv = true ↔ s.inv = true ∧ Followed (s.cmdr.getD 0) (wordOps (s.cmdr.getD 0)) s := by
  unfold State.traceInv Followed Follows
  cases Observer.reset.seeAll s.trace <;> simp [and_assoc]

/-- Only the program of the word in `CMDR` matters, and at `IDLE` none does. -/
theorem traceInv_of_followed {c : Command} {s : State} (hinv : s.inv = true)
    (hcmdr : s.seq = .idle ∨ s.cmdr = some c) (h : Followed c (wordOps c) s) : s.traceInv = true := by
  refine traceInv_iff.mpr ⟨hinv, ?_⟩
  obtain hidle | hlatched := hcmdr
  · obtain ⟨o, htrace, herr, hchk, hfits⟩ := h
    rw [hidle, fits_idle] at hfits
    exact ⟨o, htrace, herr, hchk, by rw [hidle, fits_idle]; exact hfits⟩
  · rwa [hlatched]

/-- The acceptance of a word by an idle block, seen by the observer. -/
theorem followed_accept {c : Command} {rest : List Command} {s : State} (h : s.traceInv = true) (hidle : s.seq = .idle) :
    Followed c (wordOps c) (s.accept c rest) := by
  obtain ⟨-, o, htrace, herr, hchk, hfits⟩ := traceInv_iff.mp h
  rw [hidle, fits_idle] at hfits
  have hsee := (seeAll_singleton o _).trans (see_accept (c := c) hfits)
  exact ⟨_, seeAll_trace_append htrace hsee, herr, hchk, fits_run_of_phase rfl⟩

/-- The refusal of an `ILLEGAL` word at `RUN(0)`, seen by the observer. -/
theorem followed_refuseIllegal {c : Command} {e : Illegal} {s : State} (hdecode : decode c = .error e)
    (hseq : s.seq = .run 0) (h : Followed c (wordOps c) s) : Followed c (wordOps c) s.refuseIllegal := by
  obtain ⟨o, htrace, herr, hchk, hfits⟩ := h
  rw [wordOps_of_decode_error hdecode] at hfits ⊢
  obtain ⟨left, hphase, hmay⟩ := phase_of_fits_end (hseq ▸ hfits) rfl
  have hsee := (seeAll_singleton o _).trans (see_respond hphase hmay (statusFits_of_decode_error hdecode))
  have hafter : o.afterRespond c = { o with phase := .idle } := by simp only [Observer.afterRespond, hdecode]
  rw [hafter] at hsee
  exact ⟨_, seeAll_trace_append htrace hsee, herr, hchk, fits_idle.mpr rfl⟩

/-- The execution of a legal command from a position of its micro-program meets the trace invariant when it began as one that
the observer follows. -/
theorem exec_traceInv {c : Command} {i : Instr} {s t : State} (hdecode : decode c = .ok i) (hcmdr : s.cmdr = some c)
    (hpos : s.atPosition (microProgram Config.params i) = true) (hs : Followed c (wordOps c) s)
    (h : exec i s = .next t) : t.traceInv = true := by
  have hend := exec_keeps_position (decode_wf hdecode) hcmdr hpos h
  rw [wordOps_of_decode hdecode] at hs
  have ht := exec_keeps_followed hdecode (ne_idle_of_atPosition hpos) hs h
  rw [← wordOps_of_decode hdecode] at ht
  exact traceInv_of_followed (hend.inv hdecode) (hend.imp And.left And.left) ht

/-- Settles O55: acceptance, each micro-step and the response add events in the observer's order, and a refusal is the response
that an `ILLEGAL` word is due. -/
theorem stepKeepsTraceInvariant : Obligations.StepKeepsTraceInvariant := by
  intro s t htrace h
  obtain ⟨hinv, hfollowed⟩ := traceInv_iff.mp htrace
  obtain ⟨-, -, rfl⟩ | ⟨c, rest, i, hidle, -, hdecode, hexec⟩ | ⟨c, rest, e, hidle, -, hdecode, rfl⟩ |
    ⟨c, i, hbusy, hcmdr, hdecode, hexec⟩ | ⟨c, e, hrun, hcmdr, hdecode, rfl⟩ := step_cases h
  · exact htrace
  · exact exec_traceInv hdecode rfl (accept_atPosition hinv hidle c rest _) (followed_accept htrace hidle) hexec
  · exact traceInv_of_followed (inv_refuseIllegal _) (.inl rfl)
      (followed_refuseIllegal hdecode rfl (followed_accept htrace hidle))
  · rw [hcmdr] at hfollowed
    exact exec_traceInv hdecode hcmdr (atPosition_of_inv hinv hbusy hcmdr hdecode) hfollowed hexec
  · rw [hcmdr] at hfollowed
    exact traceInv_of_followed (inv_refuseIllegal _) (.inl rfl) (followed_refuseIllegal hdecode hrun hfollowed)

/-- Settles O56: the trace is empty, and the observer at reset knows `ERR` and `CHK` of reset. -/
theorem resetMeetsTraceInvariant : Obligations.ResetMeetsTraceInvariant :=
  traceInv_iff.mpr ⟨resetMeetsSequencerInvariant, Observer.reset, rfl, rfl, rfl, rfl⟩

end Sys2Proof.Proofs
end

section
/-! PROOFS. What every command does: the command a step executes, unanswered and late requests, the fields a command may write,
and the response (spec/10_state.md rules R11 to R13, R27; spec/40_transport.md rules R70 to R76, R81; spec/70_reset_and_hazards.md
rules R181, R182). -/

namespace Sys2Proof.Proofs

open Sys2Proof Sys2Proof.Machine

/-! ## The command of a step and its micro-program -/

/-- Settles O6: at `IDLE` the step is acceptance and execution, elsewhere execution of the latched command. -/
theorem stepExecutesTheDecodedCommand : Obligations.StepExecutesTheDecodedCommand :=
  ⟨fun s c rest _ hidle hin hdecode => by rw [step_of_accept hidle hin hdecode, accept_eq],
    fun _ _ _ hbusy hcmdr hdecode => step_of_busy hbusy hcmdr hdecode⟩

/-- Settles O11: there is no word to accept. -/
theorem idleBlockWithoutCommandStays : Obligations.IdleBlockWithoutCommandStays :=
  fun _ hidle hin => step_of_no_word hidle hin

/-- Settles O12: every command checks that it is legal before it runs. -/
theorem illFormedTermIsRefused : Obligations.IllFormedTermIsRefused := by
  intro i s hwf
  obtain ⟨resp, hexec, -⟩ := exec_eq_runCommand i
  rw [hexec, runCommand_of_not_wf hwf, refuseIllegal_eq]

/-- Settles O13: each row is the model's equation for its command. -/
theorem microProgramsAreTheTable : Obligations.MicroProgramsAreTheTable := by
  unfold Obligations.MicroProgramsAreTheTable
  intros
  and_intros <;> rfl

/-- Settles O42: both are the run of the write `[STATUS, 0]` with the response 0. -/
theorem btcActsAsRwrOfZeroToStatus : Obligations.BtcActsAsRwrOfZeroToStatus := by
  intro addr s
  have hprog : microProgram Config.params (.btc addr) = microProgram Config.params (.rwr addr Config.params.regStatus 0) := rfl
  rw [exec_btc, exec_rwr, runCommand_of_wf rfl, runCommand_of_wf rfl, hprog]

/-! ## An unanswered first request -/

theorem exec_write_waits {i : Instr} {s : State} {addr : DevAddr} {bytes : List Byte} {rs : Bool} {ops : List MicroOp}
    (hwf : i.wf = true) (hprog : microProgram Config.params i = .txw addr bytes rs :: ops) (hseq : s.seq = .run 0)
    (hans : s.wrAns = []) : exec i s = .next (s.sendWrite 0 addr bytes rs) := by
  obtain ⟨resp, hexec, -⟩ := exec_eq_runCommand i
  rw [hexec, runCommand_of_wf hwf, hprog, runProgram_write_waits resp s addr bytes rs ops hseq hans]

/-- Settles O18: the request is sent and the run stops there. -/
theorem unansweredCommandWaits : Obligations.UnansweredCommandWaits := by
  refine ⟨fun i s addr bytes rs ops hwf hprog hseq hans => ?write, fun s addr len rs hpos hlen hseq hfree hans => ?read⟩
  case write => rw [exec_write_waits hwf hprog hseq hans, sendWrite_eq]
  case read =>
    rw [exec_rds_eq_runProgram hpos hlen,
      runProgram_read_waits _ s addr len rs hseq (eq_false_of_ne_true (mt (blocked_iff s).mp hfree)) hans, sendRead_eq]

/-! ## `WRS` -/

/-- R76, R58: which words with the opcode of `WRS` are legal. -/
theorem wordLegal_wrs_iff {c : Command} (hopc : c.extractLsb' 0 8 = 0x03) :
    wordLegal c = true ↔ c.extractLsb' 24 8 = 0 ∧
      ¬ ((c.extractLsb' 16 8).toNat = 0 ∨ Config.MAXWR < (c.extractLsb' 16 8).toNat) ∧
      (c.extractLsb' 32 32).toNat / 2 ^ (8 * (c.extractLsb' 16 8).toNat) = 0 := by
  have hdecode : (Fields.ofWord c).decode = (Fields.ofWord c).decodeWrs := by
    simp [Fields.decode, show (Fields.ofWord c).opc = 0x03 from hopc]
  rw [wordLegal_eq_isOk, hdecode]
  exact decodeWrs_isOk _

/-- Settles O22: `WRS` is one write that responds with 0, and each refusal breaks a condition of a legal word. -/
theorem wrsWritesItsPayload : Obligations.WrsWritesItsPayload := by
  refine ⟨fun addr payload rs hpos hlen => ?writes, fun c hopc hbad => ?illegal⟩
  case writes => exact writesBus_of_exec (decide_eq_true ⟨hpos, hlen⟩) rfl (exec_wrs addr payload rs)
  case illegal =>
    rw [← Bool.not_eq_true, wordLegal_wrs_iff hopc]
    tauto

/-! ## A late answer -/

section Runs

variable {ops : List MicroOp} {resp : State → State} (hlen : ops.length ≤ 2) (hidle : ∀ a, (resp a).seq = .idle)
include hlen hidle

/-- Fuel beyond the rank of `SEQ` changes nothing. -/
theorem settle_succ : ∀ (fuel : Nat) (s : State), seqRank s.seq ≤ fuel →
    (∀ k, s.seq = .waitW k ∨ s.seq = .waitR k → k.val < 2) →
    settle ops resp (fuel + 1) s = settle ops resp fuel s := by
  intro fuel
  induction fuel with
  | zero =>
    intro s hrank hwait
    have hover : s.seq = .idle := by
      cases hseq : s.seq with
      | idle => rfl
      | run k => simp [hseq, seqRank] at hrank
      | waitW k | waitR k =>
        have hk := hwait k (by simp [hseq])
        simp only [hseq, seqRank] at hrank
        omega
    simp only [settle, if_pos hover]
  | succ fuel ih =>
    intro s hrank hwait
    by_cases hover : s.seq = .idle
    · simp only [settle, if_pos hover]
    rw [settle, settle, if_neg hover, if_neg hover]
    cases hstep : microStep ops resp s with
    | next s' =>
      obtain ⟨hlower, hwait'⟩ := microStep_rank hlen hidle hstep
      exact ih s' (by omega) hwait'
    | fault f => cases f <;> rfl
    | refused r => rfl

/-- A run may be taken up again from the state after its first micro-step, unless the run ends or waits there. -/
theorem runProgram_of_next {s s' : State} (hbusy : s.seq ≠ .idle) (hstep : microStep ops resp s = .next s')
    (hbusy' : s'.seq ≠ .idle) (hans : microStep ops resp s' ≠ .fault .busSilent) :
    runProgram ops resp s = runProgram ops resp s' := by
  obtain ⟨hlower, -⟩ := microStep_rank hlen hidle hstep
  have hle := seqRank_le s.seq
  simp only [runProgram, begun_of_ne_idle hbusy, begun_of_ne_idle hbusy', hstep]
  rw [settle, if_neg hbusy']
  cases hstep' : microStep ops resp s' with
  | next s'' =>
    obtain ⟨hlower', hwait⟩ := microStep_rank hlen hidle hstep'
    exact (settle_succ hlen hidle 3 s'' (by omega) hwait).symm
  | fault f => cases f <;> simp_all
  | refused r => rfl

end Runs

/-- A run that starts at the answered last read of its program takes the answer and responds. -/
theorem runProgram_of_last_read {ops : List MicroOp} {resp : State → State} {s : State} {k q : Fin 3} {addr : DevAddr}
    {n : Nat} {rs : Bool} {d : ReadDraw} {ds : List ReadDraw} (hidle : ∀ a, (resp a).seq = .idle) (hseq : s.seq = .waitR k)
    (hop : ops[k.val]? = some (.txr addr n rs)) (hq : q.val = k.val + 1) (hlast : q.val = ops.length)
    (hans : s.rdAns = d :: ds) : runProgram ops resp s = .next (resp (s.takeRead k n d ds)) := by
  have hnext : (s.takeRead k n d ds).seq = .run q := congrArg Seq.run (nextIndex_eq hq)
  have hend : microStep ops resp (s.takeRead k n d ds) = .next (resp (s.takeRead k n d ds)) := by
    simp only [microStep, hnext, hlast, List.getElem?_length, if_true]
  rw [runProgram, begun_of_ne_idle (by simp [hseq]), microStep_txr_answered hop hseq hans]
  simp [settle, hnext, hend, hidle]

section Late

variable {i : Instr} {resp : State → State} {s t : State} (hidle : ∀ a, (resp a).seq = .idle) (hseq : s.seq = .run 0)
include hidle hseq

/-- R181 for a write: the wait for its answer is the first half of the run that has it. -/
theorem runProgram_late_write {e : ErrCode} {ws : List ErrCode} (hans : s.wrAns = [])
    (h : runProgram (microProgram Config.params i) resp s = .next t) (hwait : t.seq = .waitW 0) :
    runProgram (microProgram Config.params i) resp (t.setWrAns (e :: ws)) =
      runProgram (microProgram Config.params i) resp (s.setWrAns (e :: ws)) := by
  have hlen := microProgram_length i
  obtain hover | hsilent := runProgram_end hlen hidle h
  · cases hover.symm.trans hwait
  obtain ⟨k, addr, bytes, rs, hk, hop, -⟩ | ⟨k, addr, n, rs, hk, -, -⟩ := microStep_silent_iff.mp hsilent
  · obtain rfl : k = 0 := Seq.waitW.inj (hk.symm.trans hwait)
    have hprog := drop_of_op (k := 0) hop
    rw [List.drop_zero] at hprog
    rw [hprog, runProgram_write_waits resp s addr bytes rs _ hseq hans] at h
    cases h
    refine (runProgram_of_next (s := s.setWrAns (e :: ws)) hlen hidle (by simp [hseq]) (microStep_txw_sends hop hseq)
      (by simp [sendWrite_eq]) ?_).symm
    rw [microStep_txw_answered (k := 0) (e := e) (ws := ws) hop rfl rfl]
    simp
  · cases hk.symm.trans hwait

/-- R181 for a read: the wait for its answer comes after the same micro-steps as in the run that has it. -/
theorem runProgram_late_read {k : Fin 3} {d : ReadDraw} {ds : List ReadDraw} (hans : s.rdAns = [])
    (h : runProgram (microProgram Config.params i) resp s = .next t) (hwait : t.seq = .waitR k) :
    runProgram (microProgram Config.params i) resp (t.setRdAns (d :: ds)) =
      runProgram (microProgram Config.params i) resp (s.setRdAns (d :: ds)) := by
  have hnotOver : ∀ a, t ≠ resp a := by
    rintro a rfl
    cases (hidle a).symm.trans hwait
  obtain hp | ⟨addr, bytes, rs, hp⟩ | ⟨addr, n, rs, hp, -⟩ | ⟨addr, reg, n, hp, -⟩ := microProgram_shape i <;> rw [hp] at h ⊢
  · rw [runProgram_resp resp s hseq hidle] at h
    exact absurd (Host.Outcome.next.inj h).symm (hnotOver _)
  · cases hwr : s.wrAns with
    | nil =>
      rw [runProgram_write_waits resp s addr bytes rs [] hseq hwr] at h
      cases h
      cases hwait
    | cons e ws =>
      rw [runProgram_write resp s addr bytes rs e ws hseq hwr hidle] at h
      exact absurd (Host.Outcome.next.inj h).symm (hnotOver _)
  · cases hb : s.blocked with
    | true =>
      rw [runProgram_read_blocked resp s addr n rs hseq hb hidle] at h
      exact absurd (Host.Outcome.next.inj h).symm (hnotOver _)
    | false =>
      rw [runProgram_read_waits resp s addr n rs hseq hb hans] at h
      cases h
      rw [runProgram_of_last_read (k := 0) (q := 1) hidle rfl rfl rfl rfl rfl,
        runProgram_read resp (s.setRdAns (d :: ds)) addr n rs d ds hseq hb rfl hidle]
      rfl
  · cases hwr : s.wrAns with
    | nil =>
      rw [regReadOps, runProgram_write_waits resp s addr [reg] true _ hseq hwr] at h
      cases h
      cases hwait
    | cons e ws =>
      by_cases hb : s.chk = true ∧ e ≠ 0
      · rw [runProgram_regRead_blocked resp s addr reg n e ws hseq hwr hb hidle] at h
        exact absurd (Host.Outcome.next.inj h).symm (hnotOver _)
      · rw [runProgram_regRead_waits resp s addr reg n e ws hseq hwr hb hans] at h
        cases h
        rw [runProgram_of_last_read (k := 1) (q := 2) hidle rfl rfl rfl rfl rfl,
          runProgram_regRead resp (s.setRdAns (d :: ds)) addr reg n e ws d ds hseq hwr hb rfl]
        simp only [takeRead_eq, sendRead_eq, takeWrite_eq, sendWrite_eq, State.reportEvents, State.setRdAns]

end Late

/-- A command that waits is legal, so it is the run of its micro-program, from any state. -/
theorem exec_eq_runProgram_of_waits {i : Instr} {s t : State} (h : exec i s = .next t) (hwait : t.seq ≠ .idle) :
    ∃ resp : State → State, (∀ a, (resp a).seq = .idle) ∧
      ∀ a, exec i a = runProgram (microProgram Config.params i) resp a := by
  obtain ⟨resp, hexec, hresp⟩ := exec_eq_runCommand i
  cases hwf : i.wf with
  | false =>
    rw [hexec, runCommand_of_not_wf hwf] at h
    cases h
    exact absurd rfl hwait
  | true => exact ⟨resp, fun a => (hresp a).1, fun a => by rw [hexec, runCommand_of_wf hwf]⟩

/-- Settles O19: a command that waits is the run of its micro-program, which takes a late answer as one that is there. -/
theorem lateAnswersChangeNothing : Obligations.LateAnswersChangeNothing := by
  refine ⟨fun i s t e ws hseq hans h hwait => ?write, fun i s t k d ds hseq hans h hwait => ?read⟩
  case write =>
    obtain ⟨resp, hidle, hexec⟩ := exec_eq_runProgram_of_waits h (by simp [hwait])
    simp only [hexec] at h ⊢
    exact runProgram_late_write hidle hseq hans h hwait
  case read =>
    obtain ⟨resp, hidle, hexec⟩ := exec_eq_runProgram_of_waits h (by simp [hwait])
    simp only [hexec] at h ⊢
    exact runProgram_late_read hidle hseq hans h hwait

/-! ## The response -/

/-- A legal command whose every request is answered gets to its final step. -/
theorem runProgram_of_answered {i : Instr} {resp : State → State} {s : State} (hidle : ∀ a, (resp a).seq = .idle)
    (hseq : s.seq = .run 0) (hwr : s.wrAns ≠ []) (hrd : s.rdAns ≠ []) :
    ∃ a, runProgram (microProgram Config.params i) resp s = .next (resp a) := by
  obtain ⟨e, ws, hwr⟩ := List.exists_cons_of_ne_nil hwr
  obtain ⟨d, ds, hrd⟩ := List.exists_cons_of_ne_nil hrd
  obtain hp | ⟨addr, bytes, rs, hp⟩ | ⟨addr, n, rs, hp, -⟩ | ⟨addr, reg, n, hp, -⟩ := microProgram_shape i <;> rw [hp]
  · exact ⟨_, runProgram_resp resp s hseq hidle⟩
  · exact ⟨_, runProgram_write resp s addr bytes rs e ws hseq hwr hidle⟩
  · cases hb : s.blocked with
    | true => exact ⟨_, runProgram_read_blocked resp s addr n rs hseq hb hidle⟩
    | false => exact ⟨_, runProgram_read resp s addr n rs d ds hseq hb hrd hidle⟩
  · by_cases hb : s.chk = true ∧ e ≠ 0
    · exact ⟨_, runProgram_regRead_blocked resp s addr reg n e ws hseq hwr hb hidle⟩
    · exact ⟨_, runProgram_regRead resp s addr reg n e ws d ds hseq hwr hb hrd⟩

/-- Settles O51: the run gets to the final step, which responds. -/
theorem answeredCommandResponds : Obligations.AnsweredCommandResponds := by
  intro i s hwf hseq hwr hrd
  obtain ⟨resp, hexec, hresp⟩ := exec_eq_runCommand i
  obtain ⟨a, hrun⟩ := runProgram_of_answered (i := i) (fun a => (hresp a).1) hseq hwr hrd
  obtain ⟨hidle, -, -, -, -, -, ⟨res, htrace⟩, -, -⟩ := hresp a
  refine ⟨resp a, res, by rw [hexec, runCommand_of_wf hwf, hrun], hidle, ?_⟩
  rw [htrace, List.getLast?_append_cons, List.getLast?_singleton]

/-! ## The read of a register -/

/-- A report is no bus request. -/
theorem busReadReq_notMem_reportEvents (s : State) (addr addr' : DevAddr) (e : ErrCode) (n : Nat) (rs : Bool) :
    Event.busReadReq addr' n rs ∉ s.reportEvents addr e := by
  unfold State.reportEvents
  split_ifs <;> simp

/-- Settles O27: the read is skipped exactly when the write's own code leaves the block Blocked, and else it is sent, answered or
not. -/
theorem registerReadReachesBusExactlyAfterOwnSuccess : Obligations.RegisterReadReachesBusExactlyAfterOwnSuccess := by
  intro i s t addr reg n e ws hwf hprog hseq hchk hwr h
  obtain ⟨resp, hexec, hresp⟩ := exec_eq_runCommand i
  have hidle : ∀ a, (resp a).seq = .idle := fun a => (hresp a).1
  rw [hexec, runCommand_of_wf hwf, hprog] at h
  by_cases he : e = 0
  · have hfree : ¬ (s.chk = true ∧ e ≠ 0) := fun hb => hb.2 he
    cases hrd : s.rdAns with
    | nil =>
      cases (runProgram_regRead_waits resp s addr reg n e ws hseq hwr hfree hrd).symm.trans h
      simp [sendRead_eq, takeWrite_eq, sendWrite_eq, he]
    | cons d ds =>
      cases (runProgram_regRead resp s addr reg n e ws d ds hseq hwr hfree hrd).symm.trans h
      obtain ⟨-, -, -, -, -, -, ⟨res, htrace⟩, -, -⟩ :=
        hresp ((((s.sendWrite 0 addr [reg] true).takeWrite 0 addr e ws).sendRead 1 addr n false).takeRead 1 n d ds)
      rw [htrace]
      simp [takeRead_eq, sendRead_eq, takeWrite_eq, sendWrite_eq, he]
  · cases (runProgram_regRead_blocked resp s addr reg n e ws hseq hwr ⟨hchk, he⟩ hidle).symm.trans h
    obtain ⟨-, -, -, -, -, -, ⟨res, htrace⟩, -, -⟩ :=
      hresp (((s.sendWrite 0 addr [reg] true).takeWrite 0 addr e ws).skipRead 1 n)
    rw [htrace]
    simpa [skipRead_eq, takeWrite_eq, sendWrite_eq, busReadReq_notMem_reportEvents] using he

/-! ## Who writes what -/

/-- A final step ends at `IDLE`, takes no answer, and writes `ERR` and `CHK` only in `INIT` and `SCR` only in `SCS` (R27). -/
def FinalStep (i : Instr) (resp : State → State) : Prop :=
  ∀ a, (resp a).seq = .idle ∧ (resp a).wrAns = a.wrAns ∧ (resp a).rdAns = a.rdAns ∧
    (((∀ check, i ≠ .init check) ∧ (resp a).err = a.err ∧ (resp a).chk = a.chk) ∨
      ∃ check, i = .init check ∧ (resp a).err = 0 ∧ (resp a).chk = check) ∧
    ((∀ off size be value, i ≠ .scs off size be value) → (resp a).scr = a.scr)

/-- From `s` to `a` the command `i` has written `CHK` and `SCR` only if it is the one that may (R12, R13). -/
def KeepsModeAndScratch (i : Instr) (s a : State) : Prop :=
  ((∀ check, i ≠ .init check) → a.chk = s.chk) ∧ ((∀ off size be value, i ≠ .scs off size be value) → a.scr = s.scr)

/-- No answer of a write has been taken since `s` and `ERR` is as it was, unless `i` is `INIT`; or the first answer has been taken
into `ERR` by a write of `ops`, and `SEQ` is past that write (R11). -/
def WriteAnswerTaken (i : Instr) (s a : State) : Prop :=
  (((∀ check, i ≠ .init check) → a.err = s.err) ∧ a.wrAns = s.wrAns) ∨
    (s.wrAns = a.err :: a.wrAns ∧ (∃ addr bytes rs, MicroOp.txw addr bytes rs ∈ microProgram Config.params i) ∧
      a.seq ≠ .run 0 ∧ a.seq ≠ .waitW 0)

/-- No answer of a read has been taken since `s`; or the first one has, by a read of the program, and `SEQ` is past the program. -/
def ReadAnswerTaken (i : Instr) (s a : State) : Prop :=
  a.rdAns = s.rdAns ∨
    ((∃ d, s.rdAns = d :: a.rdAns) ∧ (∃ addr n rs, MicroOp.txr addr n rs ∈ microProgram Config.params i) ∧
      (a.seq = .idle ∨ ∃ k, a.seq = .run k ∧ k.val = (microProgram Config.params i).length))

/-- A micro-step that writes neither `ERR` nor the answers and is past micro-step 0 takes no answer of a write. -/
theorem WriteAnswerTaken.of_eq {i : Instr} {s a b : State} (h : WriteAnswerTaken i s a) (herr : b.err = a.err)
    (hwr : b.wrAns = a.wrAns) (hseq : b.seq ≠ .run 0 ∧ b.seq ≠ .waitW 0) : WriteAnswerTaken i s b := by
  rw [WriteAnswerTaken, herr, hwr]
  exact h.imp_right fun ⟨htaken, hmem, _⟩ => ⟨htaken, hmem, hseq⟩

/-- A micro-step at a micro-op has no read behind it: a read is the last micro-op of its program. -/
theorem ReadAnswerTaken.eq_of_op {i : Instr} {s a : State} {k : Fin 3} {op : MicroOp} (h : ReadAnswerTaken i s a)
    (hop : (microProgram Config.params i)[k.val]? = some op)
    (hseq : a.seq = .run k ∨ a.seq = .waitW k ∨ a.seq = .waitR k) : a.rdAns = s.rdAns := by
  refine h.resolve_right fun ⟨_, _, hpast⟩ => ?_
  have hlt := (List.getElem?_eq_some_iff.mp hop).1
  obtain hidle | ⟨q, hq, hend⟩ := hpast
  · simp [hidle] at hseq
  · have hkq : k = q := by simpa [hq, eq_comm] using hseq
    rw [hkq] at hlt
    omega

section Frames

variable {i : Instr} {resp : State → State} {s a b : State} (hresp : FinalStep i resp)
include hresp

theorem microStep_keepsModeAndScratch (ha : KeepsModeAndScratch i s a)
    (h : microStep (microProgram Config.params i) resp a = .next b) : KeepsModeAndScratch i s b := by
  obtain ⟨hchk, hscr⟩ := ha
  obtain ⟨k, addr, bytes, rs, -, -, rfl⟩ | ⟨k, addr, n, rs, -, -, -, rfl⟩ | ⟨k, addr, n, rs, -, -, -, rfl⟩ |
    ⟨k, -, -, rfl⟩ | ⟨k, addr, bytes, rs, e, rest, -, -, -, rfl⟩ | ⟨k, addr, n, rs, d, rest, -, -, -, rfl⟩ :=
    microStep_next_cases h
  · exact ⟨hchk, hscr⟩
  · exact ⟨hchk, hscr⟩
  · exact ⟨hchk, hscr⟩
  · obtain ⟨-, -, -, hwrites, hscr'⟩ := hresp a
    refine ⟨fun hi => ?_, fun hi => (hscr' hi).trans (hscr hi)⟩
    obtain ⟨-, -, hchk'⟩ | ⟨check, hinit, -⟩ := hwrites
    · exact hchk'.trans (hchk hi)
    · exact absurd hinit (hi check)
  · rw [takeWrite_eq]
    exact ⟨hchk, hscr⟩
  · exact ⟨hchk, hscr⟩

theorem microStep_writeAnswerTaken (ha : WriteAnswerTaken i s a)
    (h : microStep (microProgram Config.params i) resp a = .next b) : WriteAnswerTaken i s b := by
  obtain ⟨k, addr, bytes, rs, hseq, hop, rfl⟩ | ⟨k, addr, n, rs, -, -, -, rfl⟩ | ⟨k, addr, n, rs, -, -, -, rfl⟩ |
    ⟨k, -, -, rfl⟩ | ⟨k, addr, bytes, rs, e, rest, hseq, hop, hans, rfl⟩ | ⟨k, addr, n, rs, d, rest, -, -, -, rfl⟩ :=
    microStep_next_cases h
  · obtain rfl : k = 0 := Fin.ext (txw_index hop)
    exact .inl (ha.resolve_right fun ⟨_, _, hrun, _⟩ => hrun hseq)
  · exact ha.of_eq rfl rfl (by simp [skipRead_eq, nextIndex_ne_zero])
  · exact ha.of_eq rfl rfl (by simp [sendRead_eq])
  · obtain ⟨hidle, hwr, -, hwrites, -⟩ := hresp a
    obtain ⟨-, herr, -⟩ | ⟨check, rfl, -, -⟩ := hwrites
    · exact ha.of_eq herr hwr (by simp [hidle])
    · obtain ⟨-, hkept⟩ | ⟨-, ⟨_, _, _, hmem⟩, -⟩ := ha
      · exact .inl ⟨fun hi => absurd rfl (hi check), hwr.trans hkept⟩
      · simp [microProgram] at hmem
  · obtain rfl : k = 0 := Fin.ext (txw_index hop)
    obtain ⟨-, hkept⟩ := ha.resolve_right fun ⟨_, _, _, hwait⟩ => hwait hseq
    rw [takeWrite_eq]
    exact .inr ⟨hkept.symm.trans hans, ⟨addr, bytes, rs, List.mem_of_getElem? hop⟩, by simp [nextIndex]⟩
  · exact ha.of_eq rfl rfl (by simp [takeRead_eq, nextIndex_ne_zero])

theorem microStep_readAnswerTaken (ha : ReadAnswerTaken i s a)
    (h : microStep (microProgram Config.params i) resp a = .next b) : ReadAnswerTaken i s b := by
  obtain ⟨k, addr, bytes, rs, hseq, hop, rfl⟩ | ⟨k, addr, n, rs, hseq, hop, -, rfl⟩ | ⟨k, addr, n, rs, hseq, hop, -, rfl⟩ |
    ⟨k, -, -, rfl⟩ | ⟨k, addr, bytes, rs, e, rest, hseq, hop, -, rfl⟩ | ⟨k, addr, n, rs, d, rest, hseq, hop, hans, rfl⟩ :=
    microStep_next_cases h
  · exact .inl (ha.eq_of_op hop (.inl hseq))
  · exact .inl (ha.eq_of_op hop (.inl hseq))
  · exact .inl (ha.eq_of_op hop (.inl hseq))
  · obtain ⟨hidle, -, hrd, -, -⟩ := hresp a
    rw [ReadAnswerTaken, hrd, hidle]
    exact ha.imp_right fun ⟨htaken, hmem, _⟩ => ⟨htaken, hmem, .inl rfl⟩
  · rw [takeWrite_eq]
    exact .inl (ha.eq_of_op hop (.inr (.inl hseq)))
  · have hkept := ha.eq_of_op hop (.inr (.inr hseq))
    refine .inr ⟨⟨d, hkept.symm.trans hans⟩, ⟨addr, n, rs, List.mem_of_getElem? hop⟩, .inr ⟨nextIndex k, rfl, ?_⟩⟩
    rw [nextIndex_val_of_op hop, txr_index hop]

end Frames

/-- What a command may do to `CHK`, `SCR`, `ERR` and the answers, from any state. -/
theorem exec_frame {i : Instr} {s t : State} (h : exec i s = .next t) :
    KeepsModeAndScratch i s t ∧ WriteAnswerTaken i s t ∧ ReadAnswerTaken i s t := by
  obtain ⟨resp, hexec, hfinal⟩ := exec_eq_runCommand i
  have hresp : FinalStep i resp := by
    intro a
    obtain ⟨hidle, -, -, -, hwr, hrd, -, hwrites, hscr⟩ := hfinal a
    exact ⟨hidle, hwr, hrd, hwrites, hscr⟩
  rw [hexec] at h
  cases hwf : i.wf with
  | false =>
    cases (runCommand_of_not_wf hwf resp s).symm.trans h
    exact ⟨⟨fun _ => rfl, fun _ => rfl⟩, .inl ⟨fun _ => rfl, rfl⟩, .inl rfl⟩
  | true =>
    rw [runCommand_of_wf hwf] at h
    obtain ⟨hchk, herr, hscr, -, hwr, hrd, -⟩ := begun_fields s
    exact ⟨runProgram_induct _ (fun _ _ => microStep_keepsModeAndScratch hresp) ⟨fun _ => hchk, fun _ => hscr⟩ h,
      runProgram_induct _ (fun _ _ => microStep_writeAnswerTaken hresp) (.inl ⟨fun _ => herr, hwr⟩) h,
      runProgram_induct _ (fun _ _ => microStep_readAnswerTaken hresp) (.inl hrd) h⟩

/-- Settles O50: the frame of a run, read field by field; the command port is the one of a run that accepts nothing. -/
theorem commandsWriteOnlyTheirState : Obligations.CommandsWriteOnlyTheirState := by
  intro i s t h
  obtain ⟨⟨hchk, hscr⟩, hwrite, hread⟩ := exec_frame h
  obtain ⟨hport, -⟩ := exec_acceptsNothing h
  refine ⟨hchk, hscr, fun hi => ?_, hread.imp_right And.left, fun hnone => ?_, fun hnone => ?_, hport⟩
  · exact hwrite.imp (fun ⟨herr, hwr⟩ => ⟨herr hi, hwr⟩) And.left
  · obtain ⟨-, hwr⟩ | ⟨-, ⟨addr, bytes, rs, hmem⟩, -⟩ := hwrite
    · exact hwr
    · exact absurd hmem (hnone addr bytes rs)
  · obtain hrd | ⟨-, ⟨addr, n, rs, hmem⟩, -⟩ := hread
    · exact hrd
    · exact absurd hmem (hnone addr n rs)

end Sys2Proof.Proofs
end

section
/-! PROOFS. The laws of the mapper and the normalizer, and the values they return (spec/41_codec_mapper.md rules R102 to R105). -/

namespace Sys2Proof.Proofs

open Sys2Proof Sys2Proof.Machine

/-! ## Ranges -/

/-- The least and the greatest value of a range mode (R92 to R95). -/
def modeMin : Mode → Int
  | .A => 0
  | .B => 0
  | .C => -128
  | .D => -100

def modeMax : Mode → Int
  | .A => 1023
  | .B => 255
  | .C => 127
  | .D => 100

theorem mapRange_mem_range (mode : Mode) (msb lsb : Byte) :
    modeMin mode ≤ mapRange mode msb lsb ∧ mapRange mode msb lsb ≤ modeMax mode := by
  have hmsb : msb.toNat < 256 := msb.isLt
  cases mode with
  | A =>
    obtain ⟨-, -, hle⟩ := decodeOfPairIsShiftBySix msb lsb
    simp only [mapRange_A, modeMin, modeMax]
    omega
  | B =>
    simp only [mapRange_B, modeMin, modeMax]
    omega
  | C =>
    simp only [mapRange_C, modeMin, modeMax]
    omega
  | D =>
    simp only [mapRange_D, modeMin, modeMax]
    omega

theorem zeroPoint_mem_range (mode : Mode) : modeMin mode ≤ zeroPoint mode ∧ zeroPoint mode ≤ modeMax mode := by
  cases mode <;> decide

/-- R102: the deadzone answers the value or the zero point, so an axis value stays in the range of its mode. -/
theorem axis_mem_range (mode : Mode) (msb lsb : Byte) (lo hi : Band) :
    modeMin mode ≤ axis mode msb lsb lo hi ∧ axis mode msb lsb lo hi ≤ modeMax mode := by
  unfold axis
  obtain h | h := normalize_eq_zeroPoint_or_self (mapRange mode msb lsb) (zeroPoint mode) (bandValue lo) (bandValue hi) <;>
    rw [h]
  · exact zeroPoint_mem_range mode
  · exact mapRange_mem_range mode msb lsb

/-- R57: a value of 16 bits in two's complement is read back from `RES[15:0]`. -/
theorem axisField_toInt {v : Int} (hmin : -2 ^ 15 ≤ v) (hmax : v < 2 ^ 15) :
    ((axisField v).extractLsb' 0 16).toInt = v := by
  have hfield : (axisField v).extractLsb' 0 16 = BitVec.ofInt 16 v := by
    rw [axisField, ← BitVec.setWidth_eq_extractLsb' (by decide), BitVec.setWidth_setWidth_of_le _ (by decide),
      BitVec.setWidth_eq]
  rw [hfield, BitVec.toInt_ofInt]
  exact Int.bmod_eq_of_le (by omega) (by omega)

/-- Settles O32: the four ranges lie within 16 bits. -/
theorem axisValueIsRecoveredFromResult : Obligations.AxisValueIsRecoveredFromResult := by
  intro mode msb lsb lo hi
  have hrange := axis_mem_range mode msb lsb lo hi
  have hword : -2 ^ 15 ≤ modeMin mode ∧ modeMax mode < 2 ^ 15 := by cases mode <;> decide
  refine ⟨?_, ?_, ?_, ?_, axisField_toInt (by omega) (by omega)⟩ <;> rintro rfl <;> exact hrange

/-! ## Laws -/

theorem toNat_le_of_raw16_le {m l m' l' : Byte} (h : raw16 m l ≤ raw16 m' l') : m.toNat ≤ m'.toNat := by
  have hl' : l'.toNat < 256 := l'.isLt
  rw [raw16_eq, raw16_eq] at h
  omega

theorem mapRange_mono (mode : Mode) {m l m' l' : Byte} (h : raw16 m l ≤ raw16 m' l') :
    mapRange mode m l ≤ mapRange mode m' l' := by
  have hmsb := toNat_le_of_raw16_le h
  cases mode with
  | A =>
    rw [raw16_eq, raw16_eq] at h
    rw [mapRange_A, mapRange_A, decode16_eq_div, decode16_eq_div]
    omega
  | B => simpa only [mapRange_B, Int.ofNat_le] using hmsb
  | C =>
    rw [mapRange_C, mapRange_C]
    omega
  | D =>
    rw [mapRange_D, mapRange_D]
    omega

/-- R104: mode D maps the mirrored byte to the opposite value. -/
theorem mapRange_D_antisymm (m l l' : Byte) : mapRange .D (255 - m) l' = -mapRange .D m l := by
  have hm : m.toNat < 256 := m.isLt
  have hmirror : (255 - m).toNat = 255 - m.toNat := by
    rw [BitVec.toNat_sub_of_le (by rw [BitVec.le_def]; exact Nat.le_of_lt_succ hm)]
    rfl
  rw [mapRange_D, mapRange_D, hmirror]
  omega

theorem mapRange_A_div_four (m l : Byte) : mapRange .A m l / 4 = mapRange .B m l := by
  have hl : l.toNat < 256 := l.isLt
  rw [mapRange_A, mapRange_B, decode16_eq_div]
  omega

/-- Settles O33: the maps are monotone, D is antisymmetric, B is A without two bits, and the deadzone answers the zero point or the
value itself. -/
theorem mapperAndDeadzoneLaws : Obligations.MapperAndDeadzoneLaws := by
  refine ⟨fun mode m l m' l' => mapRange_mono mode, mapRange_D_antisymm, mapRange_A_div_four, fun v z lo hi => ?_⟩
  obtain h | h := normalize_eq_zeroPoint_or_self v z lo hi <;> rw [h]
  · simp
  · exact ⟨le_rfl, mul_self_nonneg _⟩

/-- Settles O34: the four values, by evaluation. -/
theorem zeroFillReadsAsFullDeflection : Obligations.ZeroFillReadsAsFullDeflection :=
  ⟨by decide, by decide, by decide, by decide⟩

end Sys2Proof.Proofs
end

section
/-! PROOFS. The layout of a returned byte string, and sequences of commands: staged scratch bytes, and `WRS` with `RDS` as `RRD`
(spec/30_encoding.md rule R57; spec/40_transport.md rule R76; spec/43_packer.md rule R127). -/

namespace Sys2Proof.Proofs

open Sys2Proof Sys2Proof.Machine

/-! ## A returned byte string -/

theorem packBytes_cons_low (b : Byte) (bs : List Byte) : (packBytes (b :: bs)).extractLsb' 0 8 = b := by
  ext i hi
  simp [packBytes, hi, show i < 64 by omega]

/-- Past the first byte a string packs as its tail does, 8 bits higher. -/
theorem packBytes_cons_high (b : Byte) (bs : List Byte) {j : Nat} (hj : j + 1 < 8) :
    (packBytes (b :: bs)).extractLsb' (8 * (j + 1)) 8 = (packBytes bs).extractLsb' (8 * j) 8 := by
  ext i hi
  simp only [packBytes, BitVec.getElem_extractLsb', BitVec.getLsbD_or, BitVec.getLsbD_shiftLeft, BitVec.getLsbD_setWidth]
  have hlt : 8 * (j + 1) + i < 64 := by omega
  have hhigh : b.getLsbD (8 * (j + 1) + i) = false := BitVec.getLsbD_of_ge _ _ (by omega)
  have hindex : 8 * (j + 1) + i - 8 = 8 * j + i := by omega
  simp [hlt, hhigh, hindex, show ¬ 8 * (j + 1) + i < 8 by omega]

/-- R57: byte `i` of a string stands in `RES[8i+7:8i]`, by induction on the string. -/
theorem packBytes_extract (bs : List Byte) {j : Nat} (hj : j < 8) : (packBytes bs).extractLsb' (8 * j) 8 = bs.getD j 0 := by
  induction bs generalizing j with
  | nil => simp [packBytes]
  | cons b bs ih =>
    cases j with
    | zero => exact packBytes_cons_low b bs
    | succ j =>
      rw [packBytes_cons_high b bs hj, List.getD_cons_succ]
      exact ih (by omega)

/-- Settles O26: the layout holds of every string, so of those of at most eight bytes. -/
theorem returnedBytesStandInOrder : Obligations.ReturnedBytesStandInOrder :=
  fun bs _ _ hj => packBytes_extract bs hj

/-! ## Staged scratch bytes -/

/-- R70: a step of an idle block that presents a legal command accepts its word and executes it. -/
theorem step_of_encode {s : State} {i : Instr} {rest : List Command} (hwf : i.wf = true) (hidle : s.seq = .idle)
    (hin : s.cmdIn = encode i :: rest) : step s = exec i (s.accept (encode i) rest) :=
  step_of_accept hidle hin (decodeOfEncodeIsTheCommand i hwf)

/-- An idle block with both temporaries empty: what a command starts from, and what a staged command leaves. -/
def Ready (s : State) : Prop := s.seq = .idle ∧ s.cmdr = none ∧ s.buf = []

/-- `t` is `s` with more events, the scratch bytes `v` and the words `rest` still to be presented. -/
def StagedFrom (s : State) (v : Vector Byte Config.SCRN) (rest : List Command) (t : State) : Prop :=
  ∃ evs : List Event, t = { s with scr := v, cmdIn := rest, trace := s.trace ++ evs }

theorem stagedFrom_refl (s : State) : StagedFrom s s.scr s.cmdIn s := ⟨[], by simp⟩

section Staging

variable {s t : State} {v : Vector Byte Config.SCRN} {rest : List Command} (hs : Ready s)
include hs

/-- R123, over a step: `SCS` stores its bytes. -/
theorem step_scs {off : Fin Config.SCRN} {size : ScsSize} {value : BitVec 32}
    (hrange : off.val + size.bytes ≤ Config.SCRN) (ht : StagedFrom s v (encode (.scs off size false value) :: rest) t) :
    ∃ t', step t = .next t' ∧ StagedFrom s (storeScr off.val (leBytes size.bytes value) v) rest t' := by
  obtain ⟨hidle, hcmdr, hbuf⟩ := hs
  obtain ⟨evs, ht⟩ := ht
  have hwf : (Instr.scs off size false value).wf = true := decide_eq_true hrange
  refine ⟨_, ?step, evs ++ [Event.accept (encode (.scs off size false value)), .respond 0 0], rfl⟩
  rw [step_of_encode hwf (by simp [ht, hidle]) (congrArg State.cmdIn ht), exec_scs,
    runCommand_of_no_microOps hwf rfl rfl fun _ => rfl]
  simp [ht, accept_eq, respond_eq, State.setScr, scsBytes, hidle, hcmdr, hbuf]

/-- R124, over a step: `SCG` returns the scratch word. -/
theorem step_scg (ht : StagedFrom s v (encode .scg :: rest) t) :
    ∃ evs : List Event, step t = .next { s with
      scr := v, cmdIn := rest, trace := s.trace ++ evs ++ [.respond 0 ((scrWord v).setWidth 64)] } := by
  obtain ⟨hidle, hcmdr, hbuf⟩ := hs
  obtain ⟨evs, ht⟩ := ht
  refine ⟨evs ++ [Event.accept (encode .scg)], ?_⟩
  rw [step_of_encode rfl (by simp [ht, hidle]) (congrArg State.cmdIn ht), exec_scg,
    runCommand_of_no_microOps rfl rfl rfl fun _ => rfl]
  simp [ht, accept_eq, respond_eq, hidle, hcmdr, hbuf]

end Staging

/-- A run of the machine is one step and the rest of the run. -/
theorem run_succ_of_step {s s' : State} (h : step s = .next s') (n : Nat) :
    Host.Core.run Sys2Proof.core (n + 1) s = Host.Core.run Sys2Proof.core n s' := by
  have hstep : Sys2Proof.core.step s = .next s' := h
  simp only [Host.Core.run, hstep]

/-- R123: a one-byte store writes its byte. -/
theorem leBytes_one (b : Byte) : leBytes (ScsSize.bytes .one) (b.setWidth 32) = [b] := by
  simp [leBytes, ScsSize.bytes, extract_setWidth_byte]

/-- R123: four one-byte stores fill the buffer. -/
theorem storeScr_four_bytes (b0 b1 b2 b3 : Byte) (v : Vector Byte Config.SCRN) :
    storeScr (3 : Fin Config.SCRN).val (leBytes (ScsSize.bytes .one) (b3.setWidth 32))
      (storeScr (2 : Fin Config.SCRN).val (leBytes (ScsSize.bytes .one) (b2.setWidth 32))
        (storeScr (1 : Fin Config.SCRN).val (leBytes (ScsSize.bytes .one) (b1.setWidth 32))
          (storeScr (0 : Fin Config.SCRN).val (leBytes (ScsSize.bytes .one) (b0.setWidth 32)) v))) =
      #v[b0, b1, b2, b3] := by
  simp only [leBytes_one]
  ext j hj : 1
  interval_cases j <;> simp [getElem_storeScr]

/-- R120: the four bytes of a word, least significant first, are the word again. -/
theorem le32_extract (w : BitVec 32) :
    le32 (w.extractLsb' 0 8) (w.extractLsb' 8 8) (w.extractLsb' 16 8) (w.extractLsb' 24 8) = w := by
  rw [le32_eq_append]
  ext i hi
  simp only [BitVec.getElem_append]
  grind

/-- R123, R124: a four-byte little-endian store is read back as its value. -/
theorem scrWord_storeScr_four (w : BitVec 32) (v : Vector Byte Config.SCRN) :
    scrWord (storeScr 0 (leBytes (ScsSize.bytes .four) w) v) = w := by
  simp [scrWord, getElem_storeScr, leBytes, ScsSize.bytes, le32_extract]

/-- Settles O47: each step stores its bytes or returns the word, and nothing else changes. -/
theorem stagedBytesReadBackAsTheWord : Obligations.StagedBytesReadBackAsTheWord := by
  refine ⟨fun s b0 b1 b2 b3 rest hidle hcmdr hbuf hin => ?bytes, fun s w rest hidle hcmdr hbuf hin => ?word⟩
  all_goals
    have hs : Ready s := ⟨hidle, hcmdr, hbuf⟩
    have hstart := stagedFrom_refl s
    rw [hin] at hstart
  case bytes =>
    obtain ⟨t0, h0, ht0⟩ := step_scs hs (by decide) hstart
    obtain ⟨t1, h1, ht1⟩ := step_scs hs (by decide) ht0
    obtain ⟨t2, h2, ht2⟩ := step_scs hs (by decide) ht1
    obtain ⟨t3, h3, ht3⟩ := step_scs hs (by decide) ht2
    obtain ⟨evs, h4⟩ := step_scg hs ht3
    rw [storeScr_four_bytes] at h4
    exact ⟨evs, (run_succ_of_step h0 4).trans <| (run_succ_of_step h1 3).trans <| (run_succ_of_step h2 2).trans <|
      (run_succ_of_step h3 1).trans <| run_succ_of_step h4 0⟩
  case word =>
    obtain ⟨t0, h0, ht0⟩ := step_scs hs (by decide) hstart
    obtain ⟨evs, h1⟩ := step_scg hs ht0
    rw [show (0 : Fin Config.SCRN).val = 0 from rfl, scrWord_storeScr_four] at h1
    exact ⟨_, evs, (run_succ_of_step h0 1).trans (run_succ_of_step h1 0)⟩

/-! ## `WRS` and `RDS` as `RRD` -/

section BusEvents

variable (evs evs' : List Event)

theorem busEvents_append : busEvents (evs ++ evs') = busEvents evs ++ busEvents evs' := List.filter_append ..

@[simp] theorem busEvents_nil : busEvents [] = [] := rfl

@[simp] theorem busEvents_accept_cons (c : Command) : busEvents (.accept c :: evs) = busEvents evs := rfl

@[simp] theorem busEvents_respond_cons (stat : BitVec 1) (res : Result) :
    busEvents (.respond stat res :: evs) = busEvents evs := rfl

@[simp] theorem busEvents_busWriteReq_cons (addr : DevAddr) (bytes : List Byte) (rs : Bool) :
    busEvents (.busWriteReq addr bytes rs :: evs) = .busWriteReq addr bytes rs :: busEvents evs := rfl

@[simp] theorem busEvents_busWriteAns_cons (e : ErrCode) :
    busEvents (.busWriteAns e :: evs) = .busWriteAns e :: busEvents evs := rfl

@[simp] theorem busEvents_busReadReq_cons (addr : DevAddr) (n : Nat) (rs : Bool) :
    busEvents (.busReadReq addr n rs :: evs) = .busReadReq addr n rs :: busEvents evs := rfl

@[simp] theorem busEvents_busReadAns_cons (bytes : List Byte) :
    busEvents (.busReadAns bytes :: evs) = .busReadAns bytes :: busEvents evs := rfl

/-- A report is no bus event. -/
@[simp] theorem busEvents_reportEvents (s : State) (addr : DevAddr) (e : ErrCode) : busEvents (s.reportEvents addr e) = [] := by
  unfold State.reportEvents
  split_ifs <;> rfl

end BusEvents

/-- The last event of a command that has responded is its response, whatever came before. -/
theorem getLast?_trace_responded (s s' : State) (evs evs' : List Event) (res : Result) :
    (s.responded evs res).trace.getLast? = (s'.responded evs' res).trace.getLast? := by
  simp [State.responded]

/-- A step of an idle block whose command responds: the acceptance, and then what the command does. -/
theorem step_responded {s : State} {i : Instr} {rest : List Command} {e : ErrCode} {ws : List ErrCode} {ds : List ReadDraw}
    {evs : List Event} {res : Result} (hwf : i.wf = true) (hidle : s.seq = .idle) (hin : s.cmdIn = encode i :: rest)
    (hexec : exec i (s.accept (encode i) rest) =
      .next (({ s.accept (encode i) rest with err := e, wrAns := ws, rdAns := ds } : State).responded evs res)) :
    step s = .next (({ s with cmdIn := rest, err := e, wrAns := ws, rdAns := ds } : State).responded
      (Event.accept (encode i) :: evs) res) := by
  rw [step_of_encode hwf hidle hin, hexec]
  simp [State.responded, accept_eq]

section Steps

variable {s : State} {addr : DevAddr} {reg : Byte} {len : Nat} {rs : Bool} {rest : List Command} {e : ErrCode}
  {ws : List ErrCode} {d : ReadDraw} {ds : List ReadDraw}

/-- R76, over a step: an answered `WRS`. -/
theorem step_wrs {payload : List Byte} (hpos : 1 ≤ payload.length) (hlen : payload.length ≤ 4) (hidle : s.seq = .idle)
    (hin : s.cmdIn = encode (.wrs addr payload rs) :: rest) (hans : s.wrAns = e :: ws) :
    step s = .next (({ s with cmdIn := rest, err := e, wrAns := ws } : State).responded
      (Event.accept (encode (.wrs addr payload rs)) ::
        ([.busWriteReq addr payload rs, .busWriteAns e] ++ s.reportEvents addr e)) 0) := by
  obtain ⟨hwrites, -⟩ := wrsWritesItsPayload
  exact step_responded (i := .wrs addr payload rs) (decide_eq_true ⟨hpos, hlen⟩) hidle hin
    (hwrites addr payload rs hpos hlen (s.accept _ rest) e ws rfl hans)

variable (hpos : 1 ≤ len) (hlen : len ≤ 8) (hidle : s.seq = .idle)
include hpos hlen hidle

/-- R77, over a step: a Blocked `RDS`. -/
theorem step_rds_blocked (hin : s.cmdIn = encode (.rds addr len rs) :: rest) (hb : s.chk = true ∧ s.err ≠ 0) :
    step s = .next (({ s with cmdIn := rest } : State).responded [Event.accept (encode (.rds addr len rs))] 0) := by
  obtain ⟨hreads, -⟩ := rdsReadsOrZeroFills
  obtain ⟨hskipped, -⟩ := hreads addr len rs (s.accept (encode (.rds addr len rs)) rest) hpos hlen rfl
  exact step_responded (i := .rds addr len rs) (decide_eq_true ⟨hpos, hlen⟩) hidle hin (hskipped hb)

/-- R77, over a step: an answered `RDS`. -/
theorem step_rds_read (hin : s.cmdIn = encode (.rds addr len rs) :: rest) (hb : ¬ (s.chk = true ∧ s.err ≠ 0))
    (hans : s.rdAns = d :: ds) :
    step s = .next (({ s with cmdIn := rest, rdAns := ds } : State).responded
      [Event.accept (encode (.rds addr len rs)), .busReadReq addr len rs, .busReadAns (d.toList.take len)]
      (packBytes (d.toList.take len))) := by
  obtain ⟨hreads, -⟩ := rdsReadsOrZeroFills
  obtain ⟨-, hread⟩ := hreads addr len rs (s.accept (encode (.rds addr len rs)) rest) hpos hlen rfl
  exact step_responded (i := .rds addr len rs) (decide_eq_true ⟨hpos, hlen⟩) hidle hin (hread hb d ds hans)

/-- R78, over a step: an `RRD` whose write leaves the block Blocked. -/
theorem step_rrd_blocked (hin : s.cmdIn = encode (.rrd addr reg len) :: rest) (hwr : s.wrAns = e :: ws)
    (hb : s.chk = true ∧ e ≠ 0) :
    step s = .next (({ s with cmdIn := rest, err := e, wrAns := ws } : State).responded
      (Event.accept (encode (.rrd addr reg len)) ::
        ([.busWriteReq addr [reg] true, .busWriteAns e] ++ s.reportEvents addr e)) 0) := by
  obtain ⟨hreads, -⟩ := rrdReadsAnyRegister
  obtain ⟨hskipped, -⟩ := hreads addr reg len hpos hlen (s.accept (encode (.rrd addr reg len)) rest) e ws rfl hwr
  have hzero : packBytes (List.replicate len 0) = 0 := packBytes_replicate_zero len
  rw [hzero] at hskipped
  exact step_responded (i := .rrd addr reg len) (decide_eq_true ⟨hpos, hlen⟩) hidle hin (hskipped hb)

/-- R78, over a step: an `RRD` with both requests answered. -/
theorem step_rrd_read (hin : s.cmdIn = encode (.rrd addr reg len) :: rest) (hwr : s.wrAns = e :: ws)
    (hb : ¬ (s.chk = true ∧ e ≠ 0)) (hrd : s.rdAns = d :: ds) :
    step s = .next (({ s with cmdIn := rest, err := e, wrAns := ws, rdAns := ds } : State).responded
      (Event.accept (encode (.rrd addr reg len)) ::
        ([.busWriteReq addr [reg] true, .busWriteAns e] ++ s.reportEvents addr e ++
          [.busReadReq addr len false, .busReadAns (d.toList.take len)])) (packBytes (d.toList.take len))) := by
  obtain ⟨hreads, -⟩ := rrdReadsAnyRegister
  obtain ⟨-, hread, -⟩ := hreads addr reg len hpos hlen (s.accept (encode (.rrd addr reg len)) rest) e ws rfl hwr
  exact step_responded (i := .rrd addr reg len) (decide_eq_true ⟨hpos, hlen⟩) hidle hin (hread hb d ds hrd)

end Steps

/-- Settles O48: the write leaves the code that decides whether the read is Blocked, in `RDS` after `WRS` as in `RRD`. -/
theorem rawPairActsAsRegisterRead : Obligations.RawPairActsAsRegisterRead := by
  intro s t u addr reg len hpos hlen hidle hwr hrd ht hu
  obtain ⟨e, ws, hwr⟩ := List.exists_cons_of_ne_nil hwr
  obtain ⟨d, ds, hrd⟩ := List.exists_cons_of_ne_nil hrd
  have hfirst := step_wrs (s := { s with cmdIn := [encode (.wrs addr [reg] true), encode (.rds addr len false)] })
    (by simp) (by simp) hidle rfl hwr
  by_cases hb : s.chk = true ∧ e ≠ 0
  · have ht' := (run_succ_of_step hfirst 1).trans (run_succ_of_step (step_rds_blocked hpos hlen rfl rfl (by exact hb)) 0)
    have hu' := step_rrd_blocked (s := { s with cmdIn := [encode (.rrd addr reg len)] }) hpos hlen hidle rfl hwr hb
    cases ht'.symm.trans ht
    cases hu'.symm.trans hu
    refine ⟨rfl, rfl, rfl, rfl, ?_, getLast?_trace_responded ..⟩
    simp [State.responded, busEvents_append]
  · have ht' := (run_succ_of_step hfirst 1).trans (run_succ_of_step (step_rds_read hpos hlen rfl rfl (by exact hb) (by exact hrd)) 0)
    have hu' := step_rrd_read (s := { s with cmdIn := [encode (.rrd addr reg len)] }) hpos hlen hidle rfl hwr hb hrd
    cases ht'.symm.trans ht
    cases hu'.symm.trans hu
    refine ⟨rfl, rfl, rfl, rfl, ?_, getLast?_trace_responded ..⟩
    simp [State.responded, busEvents_append]

end Sys2Proof.Proofs
end
